-- ==== Sys2Proof/Word.lean ====
section
/-! DEFINITION. The widths of the machine's values (00_scope.md R7, R8, R11).
Every register and memory value is an unsigned bit vector of the stated width. -/

namespace Sys2Proof

/-- A machine word: one instruction (R3, R7: `WORD_W = 16`). -/
abbrev Word := BitVec 16

/-- A register value, a RAM cell or field B (R7: `XLEN = 8`, `B_W = 8`). -/
abbrev Byte := BitVec 8

/-- An address in ROM or in RAM (R7, R8: `ADDR_W = 8`, fixed). -/
abbrev Addr := BitVec 8

/-- The opcode field of a word (R7, R66: `OPC_W = 5`). -/
abbrev Opcode := BitVec 5

/-- Field A of a word, which names one of the registers R0 to R7 (R7, R21, R68: `A_W = 3`). -/
abbrev RegIdx := BitVec 3

end Sys2Proof
end

