-- ==== Sys2Proof/Syntax.lean ====
section
/-! DEFINITION. The instruction set as syntax: the 22 mnemonics of 00_scope.md R17, the five formats of
30_encoding.md R74 to R78, and one constructor of `Instr` per row of spec/opcode_table.json.

A register named by field A is a `RegIdx`, so it always exists (R21). The second operand of a format-A
instruction is the whole of field B, a `Byte`, because a word may carry a value above 7 there (R21, R84, R89).
Fields that the decoder and the engine ignore (R85) are no part of the syntax. -/

namespace Sys2Proof

/-- The 22 instructions the spec admits (R17), in the order of spec/opcode_table.json. -/
inductive Mnemonic where
  | add | sub | cp
  | addi | subi | cpi
  | rol | ror
  | mov | ldi | ld | st | lds | sts
  | jmp | breq | brlo | brov | brlt | call
  | ret | stop
  deriving DecidableEq, Repr, Inhabited

/-- Every mnemonic once. -/
def Mnemonic.all : List Mnemonic :=
  [.add, .sub, .cp, .addi, .subi, .cpi, .rol, .ror, .mov, .ldi, .ld, .st, .lds, .sts,
   .jmp, .breq, .brlo, .brov, .brlt, .call, .ret, .stop]

/-- The operand formats A to E (R74 to R78). -/
inductive Format where
  | a  -- register, register
  | b  -- register, 8-bit value
  | c  -- one ROM address
  | d  -- one register
  | e  -- no operand
  deriving DecidableEq, Repr

/-- The format of each instruction (R17; R74 to R78). -/
def Mnemonic.format : Mnemonic → Format
  | .add | .sub | .cp | .mov | .ld | .st => .a
  | .addi | .subi | .cpi | .ldi | .lds | .sts => .b
  | .jmp | .breq | .brlo | .brov | .brlt | .call => .c
  | .rol | .ror => .d
  | .ret | .stop => .e

/-- A decoded instruction with its operand fields (R82, R84). -/
inductive Instr where
  /-- `ADD Rd, Rs`: `d` is field A, `rs` is field B (R127). -/
  | add (d : RegIdx) (rs : Byte)
  /-- `SUB Rd, Rs` (R128). -/
  | sub (d : RegIdx) (rs : Byte)
  /-- `CP Rd, Rs` (R129). -/
  | cp (d : RegIdx) (rs : Byte)
  /-- `ADDI Rd, k` (R130). -/
  | addi (d : RegIdx) (k : Byte)
  /-- `SUBI Rd, k` (R131). -/
  | subi (d : RegIdx) (k : Byte)
  /-- `CPI Rd, k` (R132). -/
  | cpi (d : RegIdx) (k : Byte)
  /-- `ROL Rd` (R144). -/
  | rol (d : RegIdx)
  /-- `ROR Rd` (R145). -/
  | ror (d : RegIdx)
  /-- `MOV Rd, Rs` (R151). -/
  | mov (d : RegIdx) (rs : Byte)
  /-- `LDI Rd, k` (R152). -/
  | ldi (d : RegIdx) (k : Byte)
  /-- `LD Rd, (Ri)`: `ri` is field B (R153). -/
  | ld (d : RegIdx) (ri : Byte)
  /-- `ST (Ri), Rs`: the data register `r` is field A, the address register `ri` field B (R82, R154). -/
  | st (r : RegIdx) (ri : Byte)
  /-- `LDS Rd, addr` (R155). -/
  | lds (d : RegIdx) (addr : Byte)
  /-- `STS addr, Rs`: the data register `r` is field A, the address field B (R75, R156). -/
  | sts (r : RegIdx) (addr : Byte)
  /-- `JMP t` (R170). -/
  | jmp (t : Addr)
  /-- `BREQ t` (R172). -/
  | breq (t : Addr)
  /-- `BRLO t` (R173). -/
  | brlo (t : Addr)
  /-- `BROV t` (R174). -/
  | brov (t : Addr)
  /-- `BRLT t` (R175). -/
  | brlt (t : Addr)
  /-- `CALL t` (R177). -/
  | call (t : Addr)
  /-- `RET` (R180). -/
  | ret
  /-- `STOP` (R182). -/
  | stop
  deriving DecidableEq, Repr

/-- The catalog entry an instruction belongs to (R81: one opcode, one instruction). -/
def Instr.mnemonic : Instr → Mnemonic
  | .add _ _ => .add
  | .sub _ _ => .sub
  | .cp _ _ => .cp
  | .addi _ _ => .addi
  | .subi _ _ => .subi
  | .cpi _ _ => .cpi
  | .rol _ => .rol
  | .ror _ => .ror
  | .mov _ _ => .mov
  | .ldi _ _ => .ldi
  | .ld _ _ => .ld
  | .st _ _ => .st
  | .lds _ _ => .lds
  | .sts _ _ => .sts
  | .jmp _ => .jmp
  | .breq _ => .breq
  | .brlo _ => .brlo
  | .brov _ => .brov
  | .brlt _ => .brlt
  | .call _ => .call
  | .ret => .ret
  | .stop => .stop

end Sys2Proof
end

