-- ==== Sys2Proof/Config.lean ====
section
/-! DEFINITION. What an implementation fixes and the source leaves open (00_scope.md R9): the parameter record
`Params`, and the values nothing in the spec states, as constants with no body.

`exec` and `step` have the host's fixed types, so the parameters, which R9 and R42 make arguments of the step
relation, stand in a field of `State` that no operation of the engine writes (DESIGN CHOICE, log entry 1).
A statement about every state is thereby a statement about every opcode assignment, every `CFIELD`, both
polarities of BRLO and every micro-op table. -/

namespace Sys2Proof

/-- One value for each of the 22 mnemonics, as plain data. -/
structure PerMnemonic (α : Type) where
  add : α
  sub : α
  cp : α
  addi : α
  subi : α
  cpi : α
  rol : α
  ror : α
  mov : α
  ldi : α
  ld : α
  st : α
  lds : α
  sts : α
  jmp : α
  breq : α
  brlo : α
  brov : α
  brlt : α
  call : α
  ret : α
  stop : α
  deriving DecidableEq, Repr, Inhabited

/-- The value of one mnemonic. -/
def PerMnemonic.get {α : Type} (p : PerMnemonic α) : Mnemonic → α
  | .add => p.add
  | .sub => p.sub
  | .cp => p.cp
  | .addi => p.addi
  | .subi => p.subi
  | .cpi => p.cpi
  | .rol => p.rol
  | .ror => p.ror
  | .mov => p.mov
  | .ldi => p.ldi
  | .ld => p.ld
  | .st => p.st
  | .lds => p.lds
  | .sts => p.sts
  | .jmp => p.jmp
  | .breq => p.breq
  | .brlo => p.brlo
  | .brov => p.brov
  | .brlt => p.brlt
  | .call => p.call
  | .ret => p.ret
  | .stop => p.stop

/-- `CFIELD(m)` for each format-C mnemonic (R9, R76): the field A value the encoder writes. -/
structure CFields where
  jmp : RegIdx
  breq : RegIdx
  brlo : RegIdx
  brov : RegIdx
  brlt : RegIdx
  call : RegIdx
  deriving DecidableEq, Repr, Inhabited

/-- `CSEQ(m)` (R9, R34): the control-signal bitmask, of `w = CTRL_W` bits, at each micro-op index. Index 0, "the
state immediately after fetch", always exists, so the sequence has at least one entry (R104). -/
structure SignalSeq (w : Nat) where
  first : BitVec w
  rest : List (BitVec w)
  deriving DecidableEq, Repr, Inhabited

/-- `MICROCYCLES(m)` is the length of `CSEQ(m)` (R9, R104), at least 1. -/
def SignalSeq.length {w : Nat} (q : SignalSeq w) : Nat := q.rest.length + 1

/-- The parameters the source leaves open (R9), as plain data. -/
structure Params where
  /-- `OPC(m)` (R79, R80). -/
  opcodes : PerMnemonic Opcode
  /-- `CFIELD(m)` (R76). -/
  cfields : CFields
  /-- `LO_TAKEN_WHEN_C` (R113). -/
  loTakenWhenC : Bool
  /-- `CTRL_W` (R34). -/
  ctrlW : Nat
  /-- `CSEQ(m)`: bitmasks of `CTRL_W` bits, `MICROCYCLES(m)` of them (R9, R34, R104). -/
  signals : PerMnemonic (SignalSeq ctrlW)
  deriving DecidableEq, Repr

/-- `OPC(m)` (R80). -/
def Params.opc (p : Params) (m : Mnemonic) : Opcode := p.opcodes.get m

/-- `MICROCYCLES(m)` (R104). -/
def Params.microcycles (p : Params) (m : Mnemonic) : Nat := (p.signals.get m).length

/-! ### Values no source states

Each is a constant without a body: nothing can evaluate it or prove a value of it. -/

/-- `LO_TAKEN_WHEN_C` of the machine at reset (R113, 90_conflicts.md C5): either value; DESIGN CHOICE, log entry 3. -/
opaque Config.loTakenWhenC : Bool

/-- `CFIELD` of the machine at reset (R9, R76): any six values; DESIGN CHOICE, log entry 3. -/
opaque Config.cfields : CFields

/-- `CTRL_W` of the machine at reset (R9, R34): any width; DESIGN CHOICE, log entry 3. -/
opaque Config.ctrlW : Nat

/-- `CSEQ` of the machine at reset (R9, R34): any sequences of `CTRL_W`-bit masks of length at least 1; DESIGN
CHOICE, log entry 3. -/
opaque Config.signals : PerMnemonic (SignalSeq Config.ctrlW)

/-- `ac` after an instruction whose rule does not name it (R31): the draw of the given number; DESIGN CHOICE, log entry 4. -/
opaque Config.freeAc : Nat → Byte

/-- `mar` after an instruction whose rule does not name it (R31); DESIGN CHOICE, log entry 4. -/
opaque Config.freeMar : Nat → Byte

/-- `mdr` after an instruction whose rule does not name it (R31); DESIGN CHOICE, log entry 4. -/
opaque Config.freeMdr : Nat → Byte

/-- ROM cell `a` after a rejected load (R192, R210): draw number, then cell; DESIGN CHOICE, log entry 5. -/
opaque Config.freeRomWord : Nat → Nat → Word

/-- The exposed control signals, of the given width, where `CSEQ` gives none (R34, R100): draw number, then `ir`;
DESIGN CHOICE, log entry 6. -/
opaque Config.freeCtrl (w : Nat) : Nat → Word → BitVec w

/-- A byte the host reads in the middle of an instruction (R103, U6): draw number, `upc`, which byte; DESIGN CHOICE,
log entry 13. -/
opaque Config.midByte : Nat → Nat → Nat → Byte

/-- A ROM word the host reads in the middle of an instruction (R103, U6); DESIGN CHOICE, log entry 13. -/
opaque Config.midWord : Nat → Nat → Nat → Word

/-- A flag the host reads in the middle of an instruction (R103, U6); DESIGN CHOICE, log entry 13. -/
opaque Config.midBit : Nat → Nat → Nat → Bool

/-- The bytes an engine holds after `create` and before any reset (R40, R212); DESIGN CHOICE, log entry 7. -/
opaque Config.createdByte : Nat → Byte

/-- The words an engine holds after `create` (R40, R212); DESIGN CHOICE, log entry 7. -/
opaque Config.createdWord : Nat → Word

/-- The one-bit registers an engine holds after `create` (R40, R212); DESIGN CHOICE, log entry 7. -/
opaque Config.createdBit : Nat → Bool

/-- `upc` after `create` (R40, R212); DESIGN CHOICE, log entry 7. -/
opaque Config.createdUpc : Nat

end Sys2Proof
end

