-- ==== Sys2Proof/WellFormed.lean ====
section
/-! DEFINITION. What makes an instruction and a parameter record well formed.

An instruction is well formed when the assembler could have produced it: the second register of a format-A
instruction is one of R0 to R7 (30_encoding.md R74, R89, R90). A parameter record is well formed when its opcodes
are pairwise distinct and ADD's is 5 (R79, R80). The other parameters are right by their types. -/

namespace Sys2Proof

/-- Field B names a register (R21, R84): `ir[7:0] <= 7`. -/
def isRegField (b : Byte) : Bool := b.toNat ≤ 7

/-- The operand part of the validity verdict (R90). -/
def Instr.wellFormed : Instr → Bool
  | .add _ b | .sub _ b | .cp _ b | .mov _ b | .ld _ b | .st _ b => isRegField b
  | .addi _ _ | .subi _ _ | .cpi _ _ | .ldi _ _ | .lds _ _ | .sts _ _ => true
  | .rol _ | .ror _ => true
  | .jmp _ | .breq _ | .brlo _ | .brov _ | .brlt _ | .call _ => true
  | .ret | .stop => true

/-- The opcodes of a parameter record are pairwise distinct (R80). -/
def Params.opcodesDistinct (p : Params) : Bool := (Mnemonic.all.map p.opc).Nodup

/-- `OPC(ADD) = 5` (R79). -/
def Params.addIsFive (p : Params) : Bool := p.opc .add == 5#5

/-- An opcode assignment the spec admits (R79, R80). -/
def Params.wf (p : Params) : Bool := p.opcodesDistinct && p.addIsFive

end Sys2Proof
end

