-- ==== Sys2Proof/Decode.lean ====
section
/-! DEFINITION. The codec (30_encoding.md): the fields of a word, the encoder and the decoder of R69 and R71,
the catalog lookup, the validity verdict, the encoding of each instruction from its slots (R82), the raw-word
directive (R93), and the opcode assignment the machine has at reset. -/

namespace Sys2Proof

/-! ### Fields of a word -/

/-- `op = w[15:11]` (R66). -/
def opField (w : Word) : Opcode := w.extractLsb' 11 5

/-- `A = w[10:8]` (R68). -/
def aField (w : Word) : RegIdx := w.extractLsb' 8 3

/-- `B = w[7:0]` (R67). -/
def bField (w : Word) : Byte := w.extractLsb' 0 8

/-- The encoder (R69): slot A is up to five bits wide and is combined by bitwise or, so a slot-A value of 8 or
more runs into the opcode (R70). -/
def encodeFields (op : Opcode) (a : BitVec 5) (b : Byte) : Word :=
  (op.setWidth 16 <<< 11) ||| (a.setWidth 16 <<< 8) ||| b.setWidth 16

/-! ### Catalog and decoder -/

/-- `CATALOG(op)`: the descriptor of an assigned opcode, or none (R71, R87, R88). -/
def catalog (p : Params) (op : Opcode) : Option Mnemonic :=
  Mnemonic.all.find? fun m => p.opc m == op

/-- What the decoder returns (R71). -/
structure Decoded where
  op : Opcode
  a : RegIdx
  b : Byte
  entry : Option Mnemonic
  valid : Bool
  deriving DecidableEq, Repr

/-- The validity verdict (R90). -/
def validWord (p : Params) (w : Word) : Bool :=
  match catalog p (opField w) with
  | none => false
  | some m => m.format != .a || isRegField (bField w)

/-- The decoder, a pure total function on words (R71). -/
def decodeWord (p : Params) (w : Word) : Decoded where
  op := opField w
  a := aField w
  b := bField w
  entry := catalog p (opField w)
  valid := validWord p w

/-- The instruction a descriptor and the two fields stand for (R74 to R78, R82). Formats C, D and E drop the
fields they ignore (R85). -/
def Instr.ofFields (m : Mnemonic) (a : RegIdx) (b : Byte) : Instr :=
  match m with
  | .add => .add a b
  | .sub => .sub a b
  | .cp => .cp a b
  | .addi => .addi a b
  | .subi => .subi a b
  | .cpi => .cpi a b
  | .rol => .rol a
  | .ror => .ror a
  | .mov => .mov a b
  | .ldi => .ldi a b
  | .ld => .ld a b
  | .st => .st a b
  | .lds => .lds a b
  | .sts => .sts a b
  | .jmp => .jmp b
  | .breq => .breq b
  | .brlo => .brlo b
  | .brov => .brov b
  | .brlt => .brlt b
  | .call => .call b
  | .ret => .ret
  | .stop => .stop

/-- Why the decoder gives no instruction. -/
inductive DecodeError where
  /-- The opcode field has no catalog entry (R88). -/
  | unknownOpcode (op : Opcode)
  deriving DecidableEq, Repr

/-- The instruction the engine dispatches on (R81, R109): the opcode alone selects it. A format-A word with
field B above 7 decodes too; its execution faults (R89, R110). -/
def decode (p : Params) (w : Word) : Except DecodeError Instr :=
  match catalog p (opField w) with
  | none => .error (.unknownOpcode (opField w))
  | some m => .ok (Instr.ofFields m (aField w) (bField w))

/-- The disassembler as a term (R90, R91): the decoded instruction of a valid word, and nothing otherwise. -/
def disassemble (p : Params) (w : Word) : Option Instr :=
  match decode p w with
  | .error _ => none
  | .ok i => if validWord p w then some i else none

/-! ### Encoding an instruction -/

/-- Slot A of an instruction (R82): a register, `CFIELD(m)` in format C, 0 in format E. -/
def slotA (p : Params) : Instr → RegIdx
  | .add d _ | .sub d _ | .cp d _ | .mov d _ | .ld d _ => d
  | .st r _ => r
  | .addi d _ | .subi d _ | .cpi d _ | .ldi d _ | .lds d _ => d
  | .sts r _ => r
  | .rol d | .ror d => d
  | .jmp _ => p.cfields.jmp
  | .breq _ => p.cfields.breq
  | .brlo _ => p.cfields.brlo
  | .brov _ => p.cfields.brov
  | .brlt _ => p.cfields.brlt
  | .call _ => p.cfields.call
  | .ret | .stop => 0#3

/-- Slot B of an instruction (R82): a register index, an immediate, an address, or 0 in formats D and E. -/
def slotB : Instr → Byte
  | .add _ b | .sub _ b | .cp _ b | .mov _ b | .ld _ b | .st _ b => b
  | .addi _ k | .subi _ k | .cpi _ k | .ldi _ k | .lds _ k | .sts _ k => k
  | .jmp t | .breq t | .brlo t | .brov t | .brlt t | .call t => t
  | .rol _ | .ror _ | .ret | .stop => 0#8

/-- The word the assembler emits for an instruction (R69, R82). -/
def encode (p : Params) (i : Instr) : Word :=
  encodeFields (p.opc i.mnemonic) ((slotA p i).setWidth 5) (slotB i)

/-- The word of two bytes, `(MSB << 8) or LSB` (R93). -/
def wordOfBytes (msb lsb : Byte) : Word := (msb.setWidth 16 <<< 8) ||| lsb.setWidth 16

/-- `.OPCODE MSB, LSB` (R93): the word of two bytes, or an error for an opcode with no catalog entry (R88). -/
def rawWord (p : Params) (msb lsb : Byte) : Option Word :=
  match catalog p (opField (wordOfBytes msb lsb)) with
  | none => none
  | some _ => some (wordOfBytes msb lsb)

/-! ### The parameters of the machine at reset -/

/-- The opcode assignment TESTCFG of 92_eei_decisions.md D28. Only ADD's value is the hardware's (R79); DESIGN CHOICE, log
entry 2. -/
def testcfgOpcodes : PerMnemonic Opcode where
  ld := 1
  st := 2
  lds := 3
  sts := 4
  add := 5
  mov := 6
  sub := 7
  cp := 8
  ldi := 9
  addi := 10
  subi := 11
  cpi := 12
  rol := 13
  ror := 14
  breq := 15
  brlo := 16
  brov := 17
  brlt := 18
  jmp := 19
  call := 20
  ret := 21
  stop := 22

/-- The parameters in `State.reset`: TESTCFG for the opcodes, which `decodeTableWord` must be able to
evaluate, and constants without a body for the other parameters; DESIGN CHOICE, log entries 2 and 3. -/
def resetParams : Params where
  opcodes := testcfgOpcodes
  cfields := Config.cfields
  loTakenWhenC := Config.loTakenWhenC
  ctrlW := Config.ctrlW
  signals := Config.signals

/-- The instruction the decoder reads from a table word under the parameters of reset. An instruction is one
16-bit word (R86), so nothing longer decodes. -/
def decodeTableWord (nbits w : Nat) : Option Instr :=
  if nbits ≤ 16 then
    match decode resetParams (BitVec.ofNat 16 w) with
    | .error _ => none
    | .ok i => some i
  else none

end Sys2Proof
end

