-- ==== Sys2Proof/Machine/State.lean ====
section
/-! DEFINITION. The state of the engine (10_state.md R42) as plain data, the reasons a step can stop, and the
state right after a hard reset.

`params` holds the arguments R9 and R42 give the step relation, and `hooks` and `hookCalls` the host's side of the
data-memory port (R38, R52, R53). `draws` is the model's own: it counts the unspecified values drawn (R31). -/

namespace Sys2Proof.Machine

open Host (Outcome)

/-- The four status flags, named bits (R28). -/
structure Flags where
  z : Bool
  n : Bool
  c : Bool
  v : Bool
  deriving DecidableEq, Repr

/-- An answer of the read hook (R52, R55): a byte, or the sentinel "not I/O-controlled". -/
inductive ReadAnswer where
  | notControlled
  | byte (v : Byte)
  deriving DecidableEq, Repr

/-- The installed I/O hooks (R38). The default stubs always answer "not controlled" and "not handled" (R54).
Hooks of the host are the answers the host will give, in order: an oracle of the right type (R55). A call for
which no answer is left never returns (R56); DESIGN CHOICE, log entry 8. -/
inductive Hooks where
  | stubs
  | installed (reads : List ReadAnswer) (writes : List Bool)
  deriving DecidableEq, Repr

/-- One hook call as the host sees it (R52, R53). -/
inductive HookCall where
  | read (a : Addr)
  | write (a : Addr) (v : Byte)
  deriving DecidableEq, Repr

/-- Why a step stops with no next state. A fault of R187 or R188 carries the values of `pc` and `ir` at that
moment (R186). -/
inductive Fault where
  /-- Raised by step and microstep about to execute a word whose opcode has no catalog entry (R188). Safe: the
  source's emulator has no defined behaviour there (D20, U1). -/
  | unknownOpcode (pc : Addr) (ir : Word)
  /-- Raised by a format-A instruction whose field B is above 7, before any write (R110, R187). Safe: there is no
  such register (D21, U2). -/
  | registerIndexOutOfRange (pc : Addr) (ir : Word)
  /-- Stuck: raised by LD, ST, LDS, STS, CALL and RET when the hook they call never returns (R56, R190, U12).
  It sets no mark. Safe: the hardware hangs. -/
  | hookNeverReturns
  deriving DecidableEq, Repr

/-- A request that has no meaning (R189). -/
inductive Refusal where
  /-- An instruction that has no meaning yet, by the name the table gives it. Safe. No arm raises it. -/
  | notModelled (mnemonic : String)
  /-- Raised by every stepping operation with `halted = 1` (R107, R189). Safe: "caller error". -/
  | stepWhileHalted
  /-- Raised by step with `upc` not 0 (R107, R189). Safe: no source gives it a meaning. -/
  | stepMidInstruction
  /-- Raised by every stepping operation with a fault recorded (R107, R189). Safe: the run has ended. -/
  | stepAfterFault
  deriving DecidableEq, Repr

/-- The state of one engine (R42). -/
structure State where
  /-- `x[0..7]` (R20). -/
  regs : Vector Byte 8
  /-- The program counter, a ROM cell index (R23). -/
  pc : Addr
  /-- The stack pointer (R26). -/
  sp : Addr
  /-- Z, N, C and V (R28). -/
  flags : Flags
  /-- The accumulator (R30). -/
  ac : Byte
  /-- The memory address register (R30). -/
  mar : Byte
  /-- The memory data register (R30). -/
  mdr : Byte
  /-- The fetched word (R32). -/
  ir : Word
  /-- The micro-op counter (R33). -/
  upc : Nat
  /-- The halted flag (R35). -/
  halted : Bool
  /-- Instruction memory: 256 cells of 16 bits (R45), the listed cells that are not 0. -/
  rom : List (Nat × BitVec 16)
  /-- Data memory: 256 cells of 8 bits (R46), the listed cells that are not 0. -/
  ram : List Host.Cell
  /-- The fault mark (R36, R186). -/
  fault : Option Fault
  /-- The refusal mark (R36, R189). -/
  refused : Option Refusal
  /-- The installed I/O hooks (R38). -/
  hooks : Hooks
  /-- The hook calls made so far, oldest first (R52, R53, R62). -/
  hookCalls : List HookCall
  /-- The model's own count of unspecified values drawn (R31); DESIGN CHOICE, log entry 4. -/
  draws : Nat
  /-- The parameters of R9, fixed for the machine; DESIGN CHOICE, log entry 1. -/
  params : Params
  deriving DecidableEq, Repr

/-- The state after `hardReset(false)` of an engine with the default hooks and nothing loaded (R40, R205, R207):
registers, flags and memories 0, `sp = 0xFF`, and the closing fetch from address 0 done. -/
def State.reset : State where
  regs := Vector.replicate 8 0#8
  pc := 1#8
  sp := 0xFF#8
  flags := { z := false, n := false, c := false, v := false }
  ac := 0#8
  mar := 0#8
  mdr := 0#8
  ir := 0#16
  upc := 0
  halted := false
  rom := []
  ram := []
  fault := none
  refused := none
  hooks := .stubs
  hookCalls := []
  draws := 0
  params := resetParams

end Sys2Proof.Machine
end

