-- ==== Sys2Proof/Machine/Ops.lean ====
section
/-! DEFINITION. The named operations over memory, registers, hooks and the sequencer's registers: the two memories
in canonical form, the data-memory port (20_memory.md R52, R53), fetch and microfetch (40_sequencer.md R100, R101),
the draws of unspecified scratch values (10_state.md R31), raising a fault and recording its mark
(60_exceptions.md R186, R189), and the exposed control signals (10_state.md R34). -/

namespace Sys2Proof.Machine

open Host (Outcome)

/-! ### Memory in canonical form

A memory is the list of its cells that are not 0, addresses strictly rising. An unlisted cell reads 0, which is
what a hard reset leaves in every cell (R205; log entry 12). -/

/-- The value of cell `a`. -/
def Memory.read {w : Nat} : List (Nat × BitVec w) → Nat → BitVec w
  | [], _ => 0#w
  | (b, v) :: m, a => if a = b then v else Memory.read m a

/-- The memory with cell `a` holding `v`; writing 0 unlists the cell. -/
def Memory.write {w : Nat} : List (Nat × BitVec w) → Nat → BitVec w → List (Nat × BitVec w)
  | [], a, v => if v = 0#w then [] else [(a, v)]
  | (b, u) :: m, a, v =>
    if a < b then
      if v = 0#w then (b, u) :: m else (a, v) :: (b, u) :: m
    else if a = b then
      if v = 0#w then m else (a, v) :: m
    else (b, u) :: Memory.write m a v

/-- Addresses strictly rising from `lo`, below 256 (R45, R46), and no cell listed with 0. -/
def Memory.wfFrom {w : Nat} (lo : Nat) : List (Nat × BitVec w) → Bool
  | [] => true
  | (a, v) :: m => decide (lo ≤ a) && decide (a < 256) && v != 0#w && Memory.wfFrom (a + 1) m

/-- The canonical form. -/
def Memory.wf {w : Nat} (m : List (Nat × BitVec w)) : Bool := Memory.wfFrom 0 m

/-- The words of a program written to consecutive cells from `a` on (R210). -/
def Memory.writeAll {w : Nat} (m : List (Nat × BitVec w)) (a : Nat) : List (BitVec w) → List (Nat × BitVec w)
  | [] => m
  | v :: vs => Memory.writeAll (Memory.write m a v) (a + 1) vs

/-- `RomRead(a)` (R12, R45). -/
def romRead (s : State) (a : Addr) : Word := Memory.read s.rom a.toNat

/-- `RAM[a]` (R46). -/
def ramRead (s : State) (a : Addr) : Byte := Memory.read s.ram a.toNat

/-- `RAM[a] <- v` (R46). -/
def ramWrite (s : State) (a : Addr) (v : Byte) : State :=
  { s with ram := Memory.write s.ram a.toNat v }

/-! ### Registers -/

/-- `x[i]` (R12, R20). -/
def readReg (s : State) (r : RegIdx) : Byte := s.regs[r.toNat]'r.isLt

/-- `x[i] <- v` (R12, R20): no register is hardwired. -/
def writeReg (s : State) (r : RegIdx) (v : Byte) : State :=
  { s with regs := s.regs.set r.toNat v r.isLt }

/-- Z, N, C and V written together (R126, R144, R145). -/
def writeFlags (s : State) (f : Flags) : State := { s with flags := f }

/-- `pc <- target` (R12). -/
def writePc (s : State) (a : Addr) : State := { s with pc := a }

/-- `sp <- v` (R26). -/
def writeSp (s : State) (a : Addr) : State := { s with sp := a }

/-! ### Scratch registers at the end of an instruction (R31) -/

/-- After an arithmetic instruction `ac` is the result, `mar` and `mdr` are drawn (R31, R135). -/
def scratchAfterAlu (s : State) (r : Byte) : State :=
  { s with ac := r, mar := Config.freeMar s.draws, mdr := Config.freeMdr s.draws, draws := s.draws + 1 }

/-- After LD, ST, LDS and STS `mar` is the address and `mdr` the byte moved, `ac` is drawn (R31, R159). -/
def scratchAfterMove (s : State) (a : Addr) (v : Byte) : State :=
  { s with mar := a, mdr := v, ac := Config.freeAc s.draws, draws := s.draws + 1 }

/-- After every other instruction all three are drawn (R31, R147, R159, R178). -/
def scratchDrawn (s : State) : State :=
  { s with
    ac := Config.freeAc s.draws, mar := Config.freeMar s.draws, mdr := Config.freeMdr s.draws
    draws := s.draws + 1 }

/-! ### The data-memory port -/

/-- The read hook's answer and what is left of the host's answers; none when the call never returns (R52, R56). -/
def Hooks.askRead : Hooks → Option (ReadAnswer × Hooks)
  | .stubs => some (.notControlled, .stubs)
  | .installed [] _ => none
  | .installed (r :: rs) ws => some (r, .installed rs ws)

/-- Whether the write hook handled the write, and what is left of the host's answers (R53, R56). -/
def Hooks.askWrite : Hooks → Option (Bool × Hooks)
  | .stubs => some (false, .stubs)
  | .installed _ [] => none
  | .installed rs (w :: ws) => some (w, .installed rs ws)

/-- The state after one hook call: the answer is used up and the call recorded. -/
def afterHook (s : State) (h : Hooks) (call : HookCall) : State :=
  { s with hooks := h, hookCalls := s.hookCalls ++ [call] }

/-- The byte a read answers with, RAM where the hook does not control the address (R52). -/
def readValue (s : State) (a : Addr) : ReadAnswer → Byte
  | .notControlled => ramRead s a
  | .byte v => v

/-- `MemRead(a, 1)` (R52): the hook once, RAM where it answers NotControlled; none when the hook hangs. -/
def memRead (s : State) (a : Addr) : Option (Byte × State) :=
  match s.hooks.askRead with
  | none => none
  | some (r, h) => some (readValue s a r, afterHook s h (.read a))

/-- RAM after a write that the hook handled or did not handle (R53). -/
def storeUnlessHandled (s : State) (a : Addr) (v : Byte) (handled : Bool) : State :=
  if handled then s else ramWrite s a v

/-- `MemWrite(a, 1, v)` (R53): the hook once, RAM only if it did not handle the write; none when it hangs. -/
def memWrite (s : State) (a : Addr) (v : Byte) : Option State :=
  match s.hooks.askWrite with
  | none => none
  | some (handled, h) => some (storeUnlessHandled (afterHook s h (.write a v)) a v handled)

/-! ### Faults, refusals and their marks -/

/-- `raise Fault(UnknownOpcode)` with the current `pc` and `ir` (R186, R188). -/
def raiseUnknownOpcode (s : State) : Outcome State Fault Refusal := .fault (.unknownOpcode s.pc s.ir)

/-- `raise Fault(RegisterIndexOutOfRange)` with the current `pc` and `ir` (R186, R187). -/
def raiseRegisterIndex (s : State) : Outcome State Fault Refusal := .fault (.registerIndexOutOfRange s.pc s.ir)

/-- A meaning that goes on with the byte read at `a`, or is stuck in the hook (R52, R56). -/
def withMemRead (s : State) (a : Addr) (k : Byte → State → State) : Outcome State Fault Refusal :=
  match memRead s a with
  | none => .fault .hookNeverReturns
  | some (v, t) => .next (k v t)

/-- A meaning that goes on after writing `v` at `a`, or is stuck in the hook (R53, R56). -/
def withMemWrite (s : State) (a : Addr) (v : Byte) (k : State → State) : Outcome State Fault Refusal :=
  match memWrite s a v with
  | none => .fault .hookNeverReturns
  | some t => .next (k t)

/-- The instruction boundary an instruction in flight started from: intermediate micro-ops change only `upc`
(R103; D16, log entry 13). -/
def boundaryBefore (s : State) : State := { s with upc := 0 }

/-- The fault mark set (R36, R186), on the state of the boundary before the faulting word (R191, R195). -/
def markFault (s : State) (f : Fault) : State := { boundaryBefore s with fault := some f }

/-- The refusal mark set (R36, R189). -/
def markRefused (s : State) (r : Refusal) : State := { s with refused := some r }

/-! ### Fetch -/

/-- `fetch` (R100). It never faults. -/
def fetch (s : State) : State := { s with ir := romRead s s.pc, pc := s.pc + 1, upc := 0 }

/-- `microfetch` (R101). -/
def microfetch (s : State) : State := { s with upc := s.upc + 1 }

/-- The word `w` in the cell the last fetch read, and fetched: what a load of `w` there leaves (R121, R210). -/
def placeFetched (s : State) (w : Word) : State :=
  { s with rom := Memory.write s.rom (s.pc - 1).toNat w, ir := w, upc := 0 }

/-! ### Observations -/

/-- The catalog entry of the word in `ir` (R34, R109). -/
def currentEntry (s : State) : Option Mnemonic := catalog s.params (opField s.ir)

/-- `CSEQ(m)[k]`, where it exists (R34). -/
def signalAt {w : Nat} (q : SignalSeq w) (k : Nat) : Option (BitVec w) := (q.first :: q.rest)[k]?

/-- The control signals `CSEQ` gives for the word in `ir` at `upc`, where it gives any (R34). -/
def State.statedCtrl (s : State) : Option (BitVec s.params.ctrlW) :=
  match currentEntry s with
  | none => none
  | some m => signalAt (s.params.signals.get m) s.upc

/-- `ctrl` (R34): an output of `CTRL_W` bits, a function of `ir` and `upc`; unspecified where `CSEQ` gives none. -/
def State.ctrl (s : State) : BitVec s.params.ctrlW :=
  s.statedCtrl.getD (Config.freeCtrl s.params.ctrlW s.draws s.ir)

end Sys2Proof.Machine
end

