-- ==== Sys2Proof/Machine/HostOps.lean ====
section
/-! DEFINITION. The host's other operations (70_reset_and_hazards.md R205 to R214): create, install hooks, load,
the two resets, and reading the state out. -/

namespace Sys2Proof.Machine

/-! ### Reset -/

/-- `softReset()` (R206, R207). -/
def softReset (s : State) : State :=
  fetch { s with pc := 0#8, sp := 0xFF#8, halted := false }

/-- `hardReset(preserveRom)` (R205, R207, R208). The marks are kept (R209), and so are the hooks (R38). -/
def hardReset (preserveRom : Bool) (s : State) : State :=
  fetch
    { s with
      regs := Vector.replicate 8 0#8
      flags := { z := false, n := false, c := false, v := false }
      ac := 0#8
      mar := 0#8
      mdr := 0#8
      ram := []
      rom := if preserveRom then s.rom else []
      pc := 0#8
      sp := 0xFF#8
      halted := false }

/-! ### Create and hooks -/

/-- ROM of a created engine: 256 unspecified words (R40, R45). -/
@[irreducible] def createdRom : List (Nat × BitVec 16) := Memory.writeAll [] 0 ((List.range 256).map Config.createdWord)

/-- RAM of a created engine: 256 unspecified bytes (R40, R46). -/
@[irreducible] def createdRam : List Host.Cell :=
  Memory.writeAll [] 0 ((List.range 256).map fun k => Config.createdByte (13 + k))

/-- `create` (R212): the default stubs installed, no mark, and every other value unspecified (R40, U14). -/
def create (p : Params) : State where
  regs := Vector.ofFn fun k => Config.createdByte k.val
  pc := Config.createdByte 8
  sp := Config.createdByte 9
  flags :=
    { z := Config.createdBit 0, n := Config.createdBit 1, c := Config.createdBit 2, v := Config.createdBit 3 }
  ac := Config.createdByte 10
  mar := Config.createdByte 11
  mdr := Config.createdByte 12
  ir := Config.createdWord 256
  upc := Config.createdUpc
  halted := Config.createdBit 4
  rom := createdRom
  ram := createdRam
  fault := none
  refused := none
  hooks := .stubs
  hookCalls := []
  draws := 0
  params := p

/-- Installing hooks (R38, R214). -/
def installHooks (h : Hooks) (s : State) : State := { s with hooks := h }

/-! ### Load -/

/-- What `load` returns (R192, R210). -/
inductive LoadResult where
  | ok
  | oversize
  | unknownOpcode
  deriving DecidableEq, Repr

/-- `w[15:11]` is an assigned opcode (R88, R210). -/
def hasEntry (p : Params) (w : Word) : Bool := (catalog p (opField w)).isSome

/-- Every ROM cell unspecified, by the draw of the given number (R192, R210). -/
@[irreducible] def unspecifiedRom (draw : Nat) : List (Nat × BitVec 16) :=
  Memory.writeAll [] 0 ((List.range 256).map (Config.freeRomWord draw))

/-- The state after a rejected load: every ROM cell unspecified (R192, R210), the rest as it was. -/
def afterRejectedLoad (s : State) : State :=
  { s with
    rom := unspecifiedRom s.draws
    draws := s.draws + 1 }

/-- `load(w)` (R210): the words go to cells 0 and up, the other cells keep their values, and a soft reset ends
it. -/
def load (ws : List Word) (s : State) : LoadResult × State :=
  if ws.length > 256 then (.oversize, afterRejectedLoad s)
  else if ws.all (hasEntry s.params) then
    (.ok, softReset { s with rom := Memory.writeAll s.rom 0 ws })
  else (.unknownOpcode, afterRejectedLoad s)

/-- The launch state of a program (R211): create, hooks, a hard reset without preserving ROM, load. -/
def launch (p : Params) (h : Hooks) (ws : List Word) : LoadResult × State :=
  load ws (hardReset false (installHooks h (create p)))

/-! ### Reading the state -/

/-- ROM as the host reads it in the middle of an instruction: every cell unspecified (R45, R103, U6). -/
@[irreducible] def midRom (draw upc : Nat) : List (Nat × BitVec 16) :=
  Memory.writeAll [] 0 ((List.range 256).map (Config.midWord draw upc))

/-- RAM as the host reads it in the middle of an instruction: every cell unspecified (R46, R103, U6). -/
@[irreducible] def midRam (draw upc : Nat) : List Host.Cell :=
  Memory.writeAll [] 0 ((List.range 256).map fun k => Config.midByte draw upc (13 + k))

/-- The state as the host may read it (R103, U6): in the middle of an instruction every register, flag and memory
cell but `upc`, `ir` and `halted` has any value. The marks are the model's, not the engine's (R36), and stay. -/
def shownState (s : State) : State :=
  if s.upc = 0 then s
  else
    { s with
      regs := Vector.ofFn fun k => Config.midByte s.draws s.upc k.val
      pc := Config.midByte s.draws s.upc 8
      sp := Config.midByte s.draws s.upc 9
      ac := Config.midByte s.draws s.upc 10
      mar := Config.midByte s.draws s.upc 11
      mdr := Config.midByte s.draws s.upc 12
      flags :=
        { z := Config.midBit s.draws s.upc 0, n := Config.midBit s.draws s.upc 1
          c := Config.midBit s.draws s.upc 2, v := Config.midBit s.draws s.upc 3 }
      rom := midRom s.draws s.upc
      ram := midRam s.draws s.upc }

/-- What the host reads (R214): every field of R42, and `ctrl`, of `w = CTRL_W` bits. -/
structure Readout (w : Nat) where
  regs : Vector Byte 8
  pc : Addr
  sp : Addr
  flags : Flags
  ac : Byte
  mar : Byte
  mdr : Byte
  ir : Word
  upc : Nat
  halted : Bool
  rom : List (Nat × BitVec 16)
  ram : List Host.Cell
  fault : Option Fault
  refused : Option Refusal
  ctrl : BitVec w
  deriving DecidableEq, Repr

/-- The fields of R42 in a state, beside given control signals. -/
def Readout.ofState {w : Nat} (s : State) (ctrl : BitVec w) : Readout w where
  regs := s.regs
  pc := s.pc
  sp := s.sp
  flags := s.flags
  ac := s.ac
  mar := s.mar
  mdr := s.mdr
  ir := s.ir
  upc := s.upc
  halted := s.halted
  rom := s.rom
  ram := s.ram
  fault := s.fault
  refused := s.refused
  ctrl := ctrl

/-- "The host may read all state between operations" (R202, R214). -/
def readState (s : State) : Readout s.params.ctrlW := Readout.ofState (shownState s) s.ctrl

end Sys2Proof.Machine
end

