-- ==== Sys2Proof/Machine/Flags.lean ====
section
/-! DEFINITION. The two ALU functions with their flags (41_arithmetic.md R126), the rotates with theirs
(42_rotate.md R140 to R145), and the conditions (40_sequencer.md R112 to R114). -/

namespace Sys2Proof.Machine

/-- An 8-bit result and the four flags. -/
structure AluResult where
  value : Byte
  flags : Flags
  deriving DecidableEq, Repr

/-- The adder both functions of R126 use: the 9-bit sum of `a`, `b` and a carry in; V from the signs of the
adder's own inputs (90_conflicts.md C4). -/
def adder (a b : Byte) (carryIn : Bool) : AluResult :=
  let s : BitVec 9 := a.setWidth 9 + b.setWidth 9 + (BitVec.ofBool carryIn).setWidth 9
  let r : Byte := s.setWidth 8
  { value := r
    flags :=
      { z := r == 0
        n := r.getLsbD 7
        c := s.getLsbD 8
        v := a.getLsbD 7 == b.getLsbD 7 && r.getLsbD 7 != a.getLsbD 7 } }

/-- `alu_add(a, b)` (R126). -/
def aluAdd (a b : Byte) : AluResult := adder a b false

/-- `alu_sub(a, b)` (R126): `a + ~b + 1`. -/
def aluSub (a b : Byte) : AluResult := adder a (~~~b) true

/-- ROL of `a` with the old carry: `{a[6:0], C}` is `(a << 1) or C` (R140, R141, R143, R144). -/
def rotateLeft (a : Byte) (c : Bool) : AluResult :=
  let r : Byte := (a <<< 1) ||| (BitVec.ofBool c).setWidth 8
  { value := r
    flags := { z := r == 0, n := r.getLsbD 7, c := a.getLsbD 7, v := a.getLsbD 7 ^^ a.getLsbD 6 } }

/-- ROR of `a` with the old carry: `{C, a[7:1]}` is `(C << 7) or (a >> 1)` (R140, R141, R143, R145). -/
def rotateRight (a : Byte) (c : Bool) : AluResult :=
  let r : Byte := ((BitVec.ofBool c).setWidth 8 <<< 7) ||| (a >>> 1)
  { value := r
    flags := { z := r == 0, n := r.getLsbD 7, c := a.getLsbD 0, v := a.getLsbD 7 ^^ a.getLsbD 0 } }

/-- The four conditions (R16, R112). -/
inductive Condition where
  | eq
  | lo
  | ov
  | lt
  deriving DecidableEq, Repr

/-- Condition evaluation (R112, R114); the polarity of LO is a parameter (R113). -/
def holdsCond (loTakenWhenC : Bool) (f : Flags) : Condition → Bool
  | .eq => f.z
  | .lo => f.c == loTakenWhenC
  | .ov => f.v
  | .lt => f.v ^^ f.n

end Sys2Proof.Machine
end

