-- ==== Sys2Proof/Machine/Operands.lean ====
section
/-! DEFINITION. Operand forms: the second register of format A (10_state.md R21, 30_encoding.md R84), whose check
comes before any write (40_sequencer.md R110), and the addressing modes of 43_data_transfer.md R150. -/

namespace Sys2Proof.Machine

open Host (Outcome)

/-- The register field B names, if it exists (R21, R84). -/
def regOperand (b : Byte) : Option RegIdx :=
  if isRegField b then some (b.setWidth 3) else none

/-- A format-A meaning: the fault check first, then the effect (R110, R187). -/
def withRegOperand (s : State) (b : Byte) (k : RegIdx → Outcome State Fault Refusal) : Outcome State Fault Refusal :=
  match regOperand b with
  | none => raiseRegisterIndex s
  | some r => k r

/-- Register indirect (R150): the data address is `x[B]`. -/
def indirectAddress (s : State) (r : RegIdx) : Addr := readReg s r

/-- Direct (R150): the data address is field B. -/
def directAddress (b : Byte) : Addr := b

/-- Immediate (R83, R150): field B as it is. -/
def immediate (b : Byte) : Byte := b

/-- A code target (R83, R165): field B as an absolute ROM address. -/
def codeTarget (t : Addr) : Addr := t

/-- The cell CALL pushes to (R176): `sp` points at the next free cell. -/
def pushAddress (s : State) : Addr := s.sp

/-- The cell RET pops from (R176): `sp` after its increment. -/
def popAddress (s : State) : Addr := s.sp + 1

end Sys2Proof.Machine
end

