-- ==== Sys2Proof/Machine/Arithmetic.lean ====
section
/-! DEFINITION. ADD, SUB, CP, ADDI, SUBI, CPI (41_arithmetic.md). Operands are read before any write (R13, R134). -/

namespace Sys2Proof.Machine

open Host (Outcome)

/-- The writes of ADD, SUB, ADDI and SUBI: flags, `ac` and the destination (R127, R128, R130, R131). -/
def finishArith (s : State) (d : RegIdx) (r : AluResult) : State :=
  writeReg (scratchAfterAlu (writeFlags s r.flags) r.value) d r.value

/-- The writes of CP and CPI: flags and `ac`, no general register (R129, R132). -/
def finishCompare (s : State) (r : AluResult) : State :=
  scratchAfterAlu (writeFlags s r.flags) r.value

/-- ADD (R127). -/
def execAdd (d : RegIdx) (rs : Byte) (s : State) : Outcome State Fault Refusal :=
  withRegOperand s rs fun r => .next (finishArith s d (aluAdd (readReg s d) (readReg s r)))

/-- SUB (R128). -/
def execSub (d : RegIdx) (rs : Byte) (s : State) : Outcome State Fault Refusal :=
  withRegOperand s rs fun r => .next (finishArith s d (aluSub (readReg s d) (readReg s r)))

/-- CP (R129). -/
def execCp (d : RegIdx) (rs : Byte) (s : State) : Outcome State Fault Refusal :=
  withRegOperand s rs fun r => .next (finishCompare s (aluSub (readReg s d) (readReg s r)))

/-- ADDI (R130). -/
def execAddi (d : RegIdx) (k : Byte) (s : State) : Outcome State Fault Refusal :=
  .next (finishArith s d (aluAdd (readReg s d) (immediate k)))

/-- SUBI (R131). -/
def execSubi (d : RegIdx) (k : Byte) (s : State) : Outcome State Fault Refusal :=
  .next (finishArith s d (aluSub (readReg s d) (immediate k)))

/-- CPI (R132). -/
def execCpi (d : RegIdx) (k : Byte) (s : State) : Outcome State Fault Refusal :=
  .next (finishCompare s (aluSub (readReg s d) (immediate k)))

end Sys2Proof.Machine
end

