-- ==== Sys2Proof/Machine/ControlFlow.lean ====
section
/-! DEFINITION. JMP, BREQ, BRLO, BROV, BRLT, CALL, RET, STOP (44_control_flow.md). While an instruction executes,
`pc` already holds the address after it (10_state.md R24). No instruction of the family writes a general register
or a flag (R167). -/

namespace Sys2Proof.Machine

open Host (Outcome)

/-- The common form of a conditional branch (R171). -/
def branchIf (s : State) (c : Condition) (t : Addr) : State :=
  if holdsCond s.params.loTakenWhenC s.flags c then writePc (scratchDrawn s) (codeTarget t) else scratchDrawn s

/-- JMP (R170). -/
def execJmp (t : Addr) (s : State) : Outcome State Fault Refusal :=
  .next (writePc (scratchDrawn s) (codeTarget t))

/-- BREQ (R172). -/
def execBreq (t : Addr) (s : State) : Outcome State Fault Refusal := .next (branchIf s .eq t)

/-- BRLO (R173). -/
def execBrlo (t : Addr) (s : State) : Outcome State Fault Refusal := .next (branchIf s .lo t)

/-- BROV (R174). -/
def execBrov (t : Addr) (s : State) : Outcome State Fault Refusal := .next (branchIf s .ov t)

/-- BRLT (R175). -/
def execBrlt (t : Addr) (s : State) : Outcome State Fault Refusal := .next (branchIf s .lt t)

/-- CALL (R176, R177): push the return address through the data-memory port (R57), then jump. -/
def execCall (t : Addr) (s : State) : Outcome State Fault Refusal :=
  withMemWrite s (pushAddress s) s.pc fun u => writePc (writeSp (scratchDrawn u) (s.sp - 1)) (codeTarget t)

/-- RET (R176, R180): pop the return address through the data-memory port (R57). -/
def execRet (s : State) : Outcome State Fault Refusal :=
  withMemRead s (popAddress s) fun v u => writePc (writeSp (scratchDrawn u) (popAddress s)) v

/-- STOP (R182): halted, no further datapath movement, `upc` 0. The step does not fetch after it (R102, R105). -/
def execStop (s : State) : Outcome State Fault Refusal :=
  .next { scratchDrawn s with halted := true, upc := 0 }

end Sys2Proof.Machine
end

