-- ==== Sys2Proof/Machine/Rotate.lean ====
section
/-! DEFINITION. ROL and ROR (42_rotate.md). -/

namespace Sys2Proof.Machine

open Host (Outcome)

/-- The writes of a rotate: flags and the register; the scratch registers are drawn (R143, R147). -/
def finishRotate (s : State) (d : RegIdx) (r : AluResult) : State :=
  writeReg (scratchDrawn (writeFlags s r.flags)) d r.value

/-- ROL (R144). -/
def execRol (d : RegIdx) (s : State) : Outcome State Fault Refusal :=
  .next (finishRotate s d (rotateLeft (readReg s d) s.flags.c))

/-- ROR (R145). -/
def execRor (d : RegIdx) (s : State) : Outcome State Fault Refusal :=
  .next (finishRotate s d (rotateRight (readReg s d) s.flags.c))

end Sys2Proof.Machine
end

