-- ==== Sys2Proof/Machine/Transfer.lean ====
section
/-! DEFINITION. MOV, LDI, LD, ST, LDS, STS (43_data_transfer.md). No instruction of the family writes a flag
(R157). -/

namespace Sys2Proof.Machine

open Host (Outcome)

/-- A load's effect (R153, R155): the byte goes through `mdr` to the register. -/
def loadByte (s : State) (d : RegIdx) (a : Addr) : Outcome State Fault Refusal :=
  withMemRead s a fun v t => writeReg (scratchAfterMove t a v) d v

/-- A store's effect (R154, R156): the register goes through `mdr` to the port. -/
def storeByte (s : State) (r : RegIdx) (a : Addr) : Outcome State Fault Refusal :=
  withMemWrite s a (readReg s r) fun t => scratchAfterMove t a (readReg s r)

/-- MOV (R151). -/
def execMov (d : RegIdx) (rs : Byte) (s : State) : Outcome State Fault Refusal :=
  withRegOperand s rs fun r => .next (writeReg (scratchDrawn s) d (readReg s r))

/-- LDI (R152). -/
def execLdi (d : RegIdx) (k : Byte) (s : State) : Outcome State Fault Refusal :=
  .next (writeReg (scratchDrawn s) d (immediate k))

/-- LD (R153). -/
def execLd (d : RegIdx) (ri : Byte) (s : State) : Outcome State Fault Refusal :=
  withRegOperand s ri fun r => loadByte s d (indirectAddress s r)

/-- ST (R154). -/
def execSt (r : RegIdx) (ri : Byte) (s : State) : Outcome State Fault Refusal :=
  withRegOperand s ri fun i => storeByte s r (indirectAddress s i)

/-- LDS (R155). -/
def execLds (d : RegIdx) (addr : Byte) (s : State) : Outcome State Fault Refusal :=
  loadByte s d (directAddress addr)

/-- STS (R156). -/
def execSts (r : RegIdx) (addr : Byte) (s : State) : Outcome State Fault Refusal :=
  storeByte s r (directAddress addr)

end Sys2Proof.Machine
end

