-- ==== Sys2Proof/Machine/Dispatch.lean ====
section
/-! DEFINITION. `execute(m)`: the dispatch of 40_sequencer.md R109, one arm per instruction and no wildcard. -/

namespace Sys2Proof.Machine

def exec (i : Instr) (s : State) : Host.Outcome State Fault Refusal :=
  match i with
  | .add d rs => Sys2Proof.Machine.execAdd d rs s
  | .sub d rs => Sys2Proof.Machine.execSub d rs s
  | .cp d rs => Sys2Proof.Machine.execCp d rs s
  | .addi d k => Sys2Proof.Machine.execAddi d k s
  | .subi d k => Sys2Proof.Machine.execSubi d k s
  | .cpi d k => Sys2Proof.Machine.execCpi d k s
  | .rol d => Sys2Proof.Machine.execRol d s
  | .ror d => Sys2Proof.Machine.execRor d s
  | .mov d rs => Sys2Proof.Machine.execMov d rs s
  | .ldi d k => Sys2Proof.Machine.execLdi d k s
  | .ld d ri => Sys2Proof.Machine.execLd d ri s
  | .st r ri => Sys2Proof.Machine.execSt r ri s
  | .lds d addr => Sys2Proof.Machine.execLds d addr s
  | .sts r addr => Sys2Proof.Machine.execSts r addr s
  | .jmp t => Sys2Proof.Machine.execJmp t s
  | .breq t => Sys2Proof.Machine.execBreq t s
  | .brlo t => Sys2Proof.Machine.execBrlo t s
  | .brov t => Sys2Proof.Machine.execBrov t s
  | .brlt t => Sys2Proof.Machine.execBrlt t s
  | .call t => Sys2Proof.Machine.execCall t s
  | .ret => Sys2Proof.Machine.execRet s
  | .stop => Sys2Proof.Machine.execStop s

end Sys2Proof.Machine
end

