-- ==== Sys2Proof/Machine/Sequencer.lean ====
section
/-! DEFINITION. The stepping operations (40_sequencer.md): step, microstep, fullstep, blockstep, their
preconditions (R107), and what the host has after a call (60_exceptions.md R186, R189, R190). -/

namespace Sys2Proof.Machine

open Host (Outcome)

/-! ### One instruction -/

/-- The precondition every stepping operation has (R107): `halted = 0` and no fault. A halted engine with a fault
recorded is refused as halted: DESIGN CHOICE, log entry 10. -/
def stepRefusal (s : State) : Option Refusal :=
  if s.halted then some .stepWhileHalted
  else if s.fault.isSome then some .stepAfterFault
  else none

/-- The closing fetch (R102, R105), which every instruction but STOP has (R182, 90_conflicts.md C10). -/
def closingFetch (i : Instr) (t : State) : State :=
  match i with
  | .stop => t
  | _ => fetch t

/-- `execute(m)` and its closing fetch; a fault is left as it is. -/
def runToBoundary (i : Instr) (s : State) : Outcome State Fault Refusal :=
  match exec i s with
  | .next t => .next (closingFetch i t)
  | .fault f => .fault f
  | .refused r => .refused r

/-- The instruction in `ir` run whole (R105, R109); an unassigned opcode faults before anything else (R188). -/
def runCurrent (s : State) : Outcome State Fault Refusal :=
  match decode s.params s.ir with
  | .error _ => raiseUnknownOpcode s
  | .ok i => runToBoundary i s

/-- `step` (R105). -/
def stepOnce (s : State) : Outcome State Fault Refusal :=
  match stepRefusal s with
  | some r => .refused r
  | none => if s.upc = 0 then runCurrent s else .refused .stepMidInstruction

/-- `microstep` (R102): every architectural effect happens at the last micro-op (R103; D16, log entry 13). -/
def microstep (s : State) : Outcome State Fault Refusal :=
  match stepRefusal s with
  | some r => .refused r
  | none =>
    match currentEntry s with
    | none => raiseUnknownOpcode s
    | some m => if s.upc + 1 < s.params.microcycles m then .next (microfetch s) else runCurrent s

/-- `k` microsteps in a row, stopping at the first fault or refusal. -/
def microsteps : Nat → State → Outcome State Fault Refusal
  | 0, s => .next s
  | k + 1, s =>
    match microstep s with
    | .next t => microsteps k t
    | .fault f => .fault f
    | .refused r => .refused r

/-! ### What the host has after a call -/

/-- What a host call leaves: the engine goes on and the call returns a value; a fault ended the run (R186); the
request was refused (R189); or the call never returns (R190). The last has no state and no mark. -/
inductive Reply (α : Type) where
  | done (t : State) (answer : α)
  | faulted (t : State)
  | refused (t : State)
  | hung
  deriving DecidableEq, Repr

/-- Going on after a call that returned. -/
def Reply.andThen {α β : Type} (r : Reply α) (k : State → α → Reply β) : Reply β :=
  match r with
  | .done t a => k t a
  | .faulted t => .faulted t
  | .refused t => .refused t
  | .hung => .hung

/-- The outcome of a stepping operation started in `s`, as the host has it: a fault marks the boundary before the
faulting word (R186, R191, R195), a refusal the state the operation was refused in (R189), and a hung hook leaves no
mark (R190). DEDUCED, log entry 16. -/
def reply (s : State) : Outcome State Fault Refusal → Reply Unit
  | .next t => .done t ()
  | .fault .hookNeverReturns => .hung
  | .fault (.unknownOpcode pc ir) => .faulted (markFault s (.unknownOpcode pc ir))
  | .fault (.registerIndexOutOfRange pc ir) => .faulted (markFault s (.registerIndexOutOfRange pc ir))
  | .refused r => .refused (markRefused s r)

/-- The host's `step` (R105, R214). -/
def hostStep (s : State) : Reply Unit := reply s (stepOnce s)

/-- The host's `microstep` (R102, R214). -/
def hostMicrostep (s : State) : Reply Unit := reply s (microstep s)

/-! ### Fullstep and blockstep -/

/-- The intermediate micro-ops the instruction in flight still has (R104). -/
def remainingMicroOps (s : State) : Nat :=
  match currentEntry s with
  | none => 0
  | some m => s.params.microcycles m - 1 - s.upc

/-- Microsteps until the instruction in flight completes, `k` of them intermediate (R108). -/
def drain : Nat → State → Reply Unit
  | 0, s => hostMicrostep s
  | k + 1, s => (hostMicrostep s).andThen fun t _ => drain k t

/-- `fullstep` (R108). -/
def fullstep (s : State) : Reply Unit :=
  if s.upc = 0 then hostStep s else drain (remainingMicroOps s) s

/-- The control-transfer class (R116, R169). -/
def isControlTransfer : Mnemonic → Bool
  | .jmp | .breq | .brlo | .brov | .brlt | .call => true
  | .add | .sub | .cp | .addi | .subi | .cpi | .rol | .ror => false
  | .mov | .ldi | .ld | .st | .lds | .sts | .ret | .stop => false

/-- The fetched instruction is of the control-transfer class (R117). -/
def atControlTransfer (s : State) : Bool :=
  match currentEntry s with
  | none => false
  | some m => isControlTransfer m

/-- The loop of blockstep with `k` steps left in the budget (R117). -/
def blockLoop : Nat → State → Reply Bool
  | 0, s => .done s (s.halted || atControlTransfer s)
  | k + 1, s =>
    if s.halted || atControlTransfer s then .done s true
    else (hostStep s).andThen fun t _ => blockLoop k t

/-- `blockstep(n)` (R117): true when a stopping condition was reached, false when the budget ran out first. -/
def blockstep (n : Nat) (s : State) : Reply Bool :=
  (fullstep s).andThen fun t _ => blockLoop n t

end Sys2Proof.Machine
end

