-- ==== Sys2Proof/Machine/Step.lean ====
section
/-! DEFINITION. The step of the machine, which is the engine's `step` operation (40_sequencer.md R105), and the
placing of one word where the next step runs it. -/

namespace Sys2Proof.Machine

/-- One `step` (R105): the word in `ir`, which the last fetch loaded, is executed, and the next is fetched. -/
def step (s : State) : Host.Outcome State Fault Refusal := stepOnce s

/-- `s` with the word `w` as the fetched word, and in the ROM cell it was fetched from; DESIGN CHOICE, log entry 11. An
instruction is one 16-bit word (R86), so `nbits` adds nothing. -/
def State.withFetchWord (s : State) (_nbits w : Nat) : State := placeFetched s (BitVec.ofNat 16 w)

end Sys2Proof.Machine
end

