-- ==== Sys2Proof/Machine/Assembler.lean ====
section
/-! DEFINITION. The assembly syntax as far as it fixes words (30_encoding.md R82, R93, R96 to R99). A line
arrives here already cut into its parts, and a numeric literal or a register as its uppercased characters (R95);
Machine/AssemblyText.lean cuts it. The log and the limits of the assembler are out of scope (00_scope.md R6).
DESIGN CHOICE, log entry 14. -/

namespace Sys2Proof.Machine

/-! ### Numeric literals (R96) -/

/-- Why a literal is rejected (R96). -/
inductive LiteralError where
  /-- No digits, or a character that is no digit of the base. -/
  | invalid
  /-- The value exceeds the bound: never truncated or wrapped. -/
  | outOfBounds
  deriving DecidableEq, Repr

/-- The value of one digit character. -/
def digitValue (c : Char) : Option Nat :=
  if '0'.toNat ≤ c.toNat ∧ c.toNat ≤ '9'.toNat then some (c.toNat - '0'.toNat)
  else if 'A'.toNat ≤ c.toNat ∧ c.toNat ≤ 'F'.toNat then some (c.toNat - 'A'.toNat + 10)
  else none

/-- The number a list of digits of one base adds to what stands before it. -/
def digitsFrom (base : Nat) (before : Nat) : List Char → Option Nat
  | [] => some before
  | c :: cs =>
    match digitValue c with
    | none => none
    | some d => if d < base then digitsFrom base (before * base + d) cs else none

/-- A magnitude: at least one digit (R96). -/
def magnitude (base : Nat) (cs : List Char) : Except LiteralError Nat :=
  match cs with
  | [] => .error .invalid
  | _ :: _ =>
    match digitsFrom base 0 cs with
    | none => .error .invalid
    | some n => .ok n

/-- A magnitude held against the bound (R96). -/
def upTo (bound : Nat) : Except LiteralError Nat → Except LiteralError Nat
  | .error e => .error e
  | .ok n => if n ≤ bound then .ok n else .error .outOfBounds

/-- A negative decimal, range-checked against `bound/2 + 1` and stored as its two's-complement pattern (R96). -/
def negated (bound : Nat) : Except LiteralError Nat → Except LiteralError Nat
  | .error e => .error e
  | .ok n => if n ≤ bound / 2 + 1 then .ok ((bound + 1 - n) % (bound + 1)) else .error .outOfBounds

/-- A numeric literal by its prefix (R96). -/
def literal (bound : Nat) : List Char → Except LiteralError Nat
  | '0' :: 'X' :: cs => upTo bound (magnitude 16 cs)
  | '$' :: cs => upTo bound (magnitude 16 cs)
  | '0' :: 'B' :: cs => upTo bound (magnitude 2 cs)
  | '+' :: cs => upTo bound (magnitude 10 cs)
  | '-' :: cs => negated bound (magnitude 10 cs)
  | cs => upTo bound (magnitude 10 cs)

/-- A register operand: `R` and a digit from 0 to 7 (R97). -/
def registerName : List Char → Option RegIdx
  | ['R', c] =>
    match digitValue c with
    | none => none
    | some d => if d ≤ 7 then some (BitVec.ofNat 3 d) else none
  | _ => none

/-! ### Sentences -/

/-- An identifier (R98). -/
abbrev Symbol := List Char

/-- A slot-B value: known at once, or a symbol resolved at encode time (R97, R98). -/
inductive SlotValue where
  | known (v : Byte)
  | symbol (name : Symbol)
  deriving DecidableEq, Repr

/-- A mnemonic instruction with its operands in the order of the text (R82). -/
inductive AsmInstr where
  | regReg (m : Mnemonic) (first second : RegIdx)
  | regValue (m : Mnemonic) (r : RegIdx) (v : SlotValue)
  | valueReg (m : Mnemonic) (v : SlotValue) (r : RegIdx)
  | address (m : Mnemonic) (t : SlotValue)
  | reg (m : Mnemonic) (r : RegIdx)
  | bare (m : Mnemonic)
  deriving DecidableEq, Repr

/-- An instruction occurrence, its opcode and its two slots (R15, R82). -/
structure Sentence where
  op : Opcode
  slotA : BitVec 5
  slotB : SlotValue
  deriving DecidableEq, Repr

/-- `CFIELD(m)` of a format-C mnemonic, 0 for any other (R76). -/
def cfieldOf (p : Params) : Mnemonic → RegIdx
  | .jmp => p.cfields.jmp
  | .breq => p.cfields.breq
  | .brlo => p.cfields.brlo
  | .brov => p.cfields.brov
  | .brlt => p.cfields.brlt
  | .call => p.cfields.call
  | .add | .sub | .cp | .addi | .subi | .cpi | .rol | .ror => 0#3
  | .mov | .ldi | .ld | .st | .lds | .sts | .ret | .stop => 0#3

/-- A register index as a slot-B value. -/
def regSlot (r : RegIdx) : SlotValue := .known (r.setWidth 8)

/-- The sentence of a mnemonic instruction (R82): ST takes its data register second and swaps, STS takes the
address first; none where the operands are not those of the mnemonic. -/
def AsmInstr.sentence (p : Params) : AsmInstr → Option Sentence
  | .regReg m x y =>
    if m.format = .a then
      if m = .st then some ⟨p.opc m, y.setWidth 5, regSlot x⟩ else some ⟨p.opc m, x.setWidth 5, regSlot y⟩
    else none
  | .regValue m r v => if m.format = .b ∧ m ≠ .sts then some ⟨p.opc m, r.setWidth 5, v⟩ else none
  | .valueReg m v r => if m = .sts then some ⟨p.opc m, r.setWidth 5, v⟩ else none
  | .address m t => if m.format = .c then some ⟨p.opc m, (cfieldOf p m).setWidth 5, t⟩ else none
  | .reg m r => if m.format = .d then some ⟨p.opc m, r.setWidth 5, .known 0#8⟩ else none
  | .bare m => if m.format = .e then some ⟨p.opc m, 0#5, .known 0#8⟩ else none

/-! ### Lines and the two passes -/

/-- A line that is not blank (R95). -/
inductive AsmLine where
  | equ (name : Symbol) (value : Byte)
  | opcode (msb : Byte) (lsb : SlotValue)
  | labelled (name : Symbol) (rest : AsmInstr)
  | plain (i : AsmInstr)
  deriving DecidableEq, Repr

/-- Why assembly stops. -/
inductive AsmError where
  /-- Operands that are not those of the mnemonic (R97). -/
  | badOperands
  /-- `.OPCODE` with an opcode that has no catalog entry (R88, R93). -/
  | unknownOpcode
  /-- A symbol with no definition. -/
  | undefinedSymbol
  deriving DecidableEq, Repr

/-- The symbol table, the warnings and the sentences read so far. -/
structure AsmState where
  symbols : List (Symbol × Nat)
  warnings : Nat
  sentences : List Sentence
  deriving DecidableEq, Repr

/-- The value of a symbol. -/
def lookupSymbol : List (Symbol × Nat) → Symbol → Option Nat
  | [], _ => none
  | (x, v) :: rest, name => if x = name then some v else lookupSymbol rest name

/-- A definition: the first binding wins, a duplicate is one warning (R98). -/
def bindSymbol (s : AsmState) (name : Symbol) (v : Nat) : AsmState :=
  match lookupSymbol s.symbols name with
  | some _ => { s with warnings := s.warnings + 1 }
  | none => { s with symbols := s.symbols ++ [(name, v)] }

/-- One more sentence: every mnemonic line and every `.OPCODE` emits exactly one word (R99). -/
def addSentence (s : AsmState) (t : Sentence) : AsmState := { s with sentences := s.sentences ++ [t] }

/-- The first pass over one line (R93, R98, R99). A label is the index of the next sentence. -/
def readLine (p : Params) (s : AsmState) : AsmLine → Except AsmError AsmState
  | .equ name v => .ok (bindSymbol s name v.toNat)
  | .opcode msb lsb =>
    match catalog p (msb.extractLsb' 3 5) with
    | none => .error .unknownOpcode
    | some _ => .ok (addSentence s ⟨msb.extractLsb' 3 5, msb.extractLsb' 0 5, lsb⟩)
  | .labelled name rest =>
    match rest.sentence p with
    | none => .error .badOperands
    | some t => .ok (addSentence (bindSymbol s name s.sentences.length) t)
  | .plain i =>
    match i.sentence p with
    | none => .error .badOperands
    | some t => .ok (addSentence s t)

/-- The first pass. -/
def readLines (p : Params) (s : AsmState) : List AsmLine → Except AsmError AsmState
  | [] => .ok s
  | l :: ls =>
    match readLine p s l with
    | .error e => .error e
    | .ok t => readLines p t ls

/-- A slot-B value with its symbol resolved (R98). -/
def resolve (symbols : List (Symbol × Nat)) : SlotValue → Option Byte
  | .known v => some v
  | .symbol name => (lookupSymbol symbols name).map (BitVec.ofNat 8)

/-- The encode pass: after all lines are read, so a label may stand before its definition (R69, R98). -/
def encodeSentences (symbols : List (Symbol × Nat)) : List Sentence → Except AsmError (List Word)
  | [] => .ok []
  | t :: ts =>
    match resolve symbols t.slotB, encodeSentences symbols ts with
    | none, _ => .error .undefinedSymbol
    | some _, .error e => .error e
    | some b, .ok ws => .ok (encodeFields t.op t.slotA b :: ws)

/-- Both passes: the words and the number of warnings. -/
def assemble (p : Params) (ls : List AsmLine) : Except AsmError (List Word × Nat) :=
  match readLines p ⟨[], 0, []⟩ ls with
  | .error e => .error e
  | .ok s =>
    match encodeSentences s.symbols s.sentences with
    | .error e => .error e
    | .ok ws => .ok (ws, s.warnings)

end Sys2Proof.Machine
end

