-- ==== Sys2Proof/Safety.lean ====
section
/-! DEFINITION. What counts as a safe run, in the terms claims use: the invariant every state of a run meets, an
instruction boundary, the good end of a run (40_sequencer.md R120), and the table of what each instruction may
write (10_state.md R22, R29). -/

namespace Sys2Proof.Safety

open Sys2Proof.Machine

/-- The micro-op counter is in its range (R33, R104). With an unassigned opcode no micro-op ever runs. -/
def upcInRange (s : State) : Prop :=
  match currentEntry s with
  | none => s.upc = 0
  | some m => s.upc < s.params.microcycles m

/-- The invariant of the engine: both memories in canonical form, so every listed cell exists (R45, R46); an
opcode assignment the spec admits (R79, R80); and the micro-op counter in its range (R33). -/
structure EngineInv (s : State) : Prop where
  rom : Memory.wf s.rom = true
  ram : Memory.wf s.ram = true
  params : s.params.wf = true
  upc : upcInRange s

/-- An engine ready to step: not halted, no fault recorded, at an instruction boundary (R105, R107). -/
structure Ready (s : State) : Prop where
  running : s.halted = false
  noFault : s.fault = none
  boundary : s.upc = 0

/-- The only good end of a run (R120). -/
structure GoodEnd (s : State) : Prop where
  halted : s.halted = true
  noFault : s.fault = none
  noRefusal : s.refused = none

/-- The word in `ir` is the one in the cell before `pc` (R121). -/
def FetchedWord (s : State) : Prop := s.ir = romRead s (s.pc - 1)

/-- The general register an instruction writes, by the table of R22. -/
def destReg : Instr → Option RegIdx
  | .add d _ | .sub d _ | .addi d _ | .subi d _ => some d
  | .mov d _ | .ldi d _ | .ld d _ | .lds d _ => some d
  | .rol d | .ror d => some d
  | .cp _ _ | .cpi _ _ | .st _ _ | .sts _ _ => none
  | .jmp _ | .breq _ | .brlo _ | .brov _ | .brlt _ | .call _ => none
  | .ret | .stop => none

/-- The instructions that write the flags, by the table of R29. -/
def writesFlags : Instr → Bool
  | .add _ _ | .sub _ _ | .cp _ _ | .addi _ _ | .subi _ _ | .cpi _ _ | .rol _ | .ror _ => true
  | .mov _ _ | .ldi _ _ | .ld _ _ | .st _ _ | .lds _ _ | .sts _ _ => false
  | .jmp _ | .breq _ | .brlo _ | .brov _ | .brlt _ | .call _ | .ret | .stop => false

/-- The RAM cell an instruction stores to, if it stores (R154, R156, R177): the address its meaning computes. -/
def storeAddress (s : State) : Instr → Option Addr
  | .st _ b => (regOperand b).map (indirectAddress s)
  | .sts _ b => some (directAddress b)
  | .call _ => some (pushAddress s)
  | .add _ _ | .sub _ _ | .cp _ _ | .addi _ _ | .subi _ _ | .cpi _ _ | .rol _ | .ror _ => none
  | .mov _ _ | .ldi _ _ | .ld _ _ | .lds _ _ => none
  | .jmp _ | .breq _ | .brlo _ | .brov _ | .brlt _ | .ret | .stop => none

/-- The RAM cell an instruction reads, if it reads (R153, R155, R180). -/
def loadAddress (s : State) : Instr → Option Addr
  | .ld _ b => (regOperand b).map (indirectAddress s)
  | .lds _ b => some (directAddress b)
  | .ret => some (popAddress s)
  | .add _ _ | .sub _ _ | .cp _ _ | .addi _ _ | .subi _ _ | .cpi _ _ | .rol _ | .ror _ => none
  | .mov _ _ | .ldi _ _ | .st _ _ | .sts _ _ => none
  | .jmp _ | .breq _ | .brlo _ | .brov _ | .brlt _ | .call _ | .stop => none

/-- The only instructions that write `pc` themselves (R24, R170 to R180). -/
def writesPc : Instr → Bool
  | .jmp _ | .breq _ | .brlo _ | .brov _ | .brlt _ | .call _ | .ret => true
  | .add _ _ | .sub _ _ | .cp _ _ | .addi _ _ | .subi _ _ | .cpi _ _ | .rol _ | .ror _ => false
  | .mov _ _ | .ldi _ _ | .ld _ _ | .st _ _ | .lds _ _ | .sts _ _ | .stop => false

/-- The only instructions that access `sp` (R26). -/
def writesSp : Instr → Bool
  | .call _ | .ret => true
  | .jmp _ | .breq _ | .brlo _ | .brov _ | .brlt _ | .stop => false
  | .add _ _ | .sub _ _ | .cp _ _ | .addi _ _ | .subi _ _ | .cpi _ _ | .rol _ | .ror _ => false
  | .mov _ _ | .ldi _ _ | .ld _ _ | .st _ _ | .lds _ _ | .sts _ _ => false

/-- The read hook answers the next call (R56). -/
def readReturns (s : State) : Prop := s.hooks.askRead.isSome = true

/-- The write hook answers the next call (R56). -/
def writeReturns (s : State) : Prop := s.hooks.askWrite.isSome = true

/-! ### What an instruction leaves alone -/

/-- What no instruction writes: the fetched word (R32), ROM (R45), the marks (R36) and the parameters. -/
structure KeepsFixed (s t : State) : Prop where
  ir : t.ir = s.ir
  rom : t.rom = s.rom
  fault : t.fault = s.fault
  refused : t.refused = s.refused
  params : t.params = s.params

/-- RAM, the hooks and the record of hook calls are unchanged. -/
structure KeepsPort (s t : State) : Prop where
  ram : t.ram = s.ram
  hooks : t.hooks = s.hooks
  hookCalls : t.hookCalls = s.hookCalls

/-- `upc` and `halted` are unchanged. -/
structure KeepsRunning (s t : State) : Prop where
  upc : t.upc = s.upc
  halted : t.halted = s.halted

/-- `pc`, `sp`, `upc` and `halted` are unchanged. -/
structure KeepsControl (s t : State) : Prop where
  pc : t.pc = s.pc
  sp : t.sp = s.sp
  running : KeepsRunning s t

/-- Register `d`, if any, holds `v`; every other general register is unchanged. -/
def RegsAre (s t : State) (d : Option RegIdx) (v : Byte) : Prop :=
  ∀ q, readReg t q = if d = some q then v else readReg s q

/-- RAM after a write of `v` to `a` through the port (R53): unchanged if the hook handled it; otherwise cell `a`
holds `v`, where memory is in canonical form, and every other cell is unchanged. -/
structure Stored (s t : State) (a : Addr) (v : Byte) (handled : Bool) : Prop where
  byHost : handled = true → t.ram = s.ram
  byEngine : handled = false → Memory.wf s.ram = true → ramRead t a = v
  others : ∀ b, b ≠ a → ramRead t b = ramRead s b

/-- The state without its scratch registers, which no instruction reads (R44). -/
def dropScratch (s : State) : State := { s with ac := 0#8, mar := 0#8, mdr := 0#8 }

end Sys2Proof.Safety
end

