-- ==== Sys2Proof/Certificates/Slice0/Obligations.lean ====
section
/-! DEFINITION. The statements for the provers. A statement whose docstring names a decision `D<n>` of
92_eei_decisions.md, or a log entry, rests on a choice and not on the source's own words. -/

open Sys2Proof Sys2Proof.Machine Sys2Proof.Safety

/-! ### The codec -/

/-- R66 and R67: the opcode is bits 15:11 and field B bits 7:0, read as unsigned numbers. -/
def Obligations.FieldsAreBitRangesOfTheWord : Prop :=
  ∀ w : Word,
    (opField w).toNat = w.toNat / 2 ^ 11 ∧ (opField w).toNat ≤ 31 ∧
    (bField w).toNat = w.toNat % 2 ^ 8 ∧ (bField w).toNat ≤ 255

/-- R69: the encoder's masks, shifts and bitwise or. -/
def Obligations.EncoderCombinesMaskedSlots : Prop :=
  ∀ (op : Opcode) (a : BitVec 5) (b : Byte),
    (encodeFields op a b).toNat =
      ((op.toNat &&& 0x1F) <<< 11) ||| ((a.toNat &&& 0x1F) <<< 8) ||| (b.toNat &&& 0xFF)

/-- R70 and R72: bits 4:3 of slot A are or-ed into the low bits of the opcode and nothing else overlaps, so with
slot A at most 7 the decoder recovers the three fields. -/
def Obligations.EncodedFieldsDecode : Prop :=
  ∀ (op : Opcode) (a : BitVec 5) (b : Byte),
    opField (encodeFields op a b) = op ||| a >>> 3 ∧
    aField (encodeFields op a b) = a.setWidth 3 ∧ bField (encodeFields op a b) = b ∧
    (a.toNat ≤ 7 → opField (encodeFields op a b) = op ∧ (aField (encodeFields op a b)).toNat = a.toNat)

/-- R73: the decoder drops no bit of a word, and a decoded instruction keeps every field its format uses. -/
def Obligations.DecodedFieldsEncode : Prop :=
  (∀ w : Word, encodeFields (opField w) ((aField w).setWidth 5) (bField w) = w) ∧
  ∀ (p : Params) (w : Word) (i : Instr), decode p w = .ok i →
    opField (encode p i) = opField w ∧
    (i.mnemonic.format ≠ .c → i.mnemonic.format ≠ .e → aField (encode p i) = aField w) ∧
    (i.mnemonic.format ≠ .d → i.mnemonic.format ≠ .e → bField (encode p i) = bField w)

/-- R71, R87 and R90: what the decoder returns, the catalog of the 22 instructions, and the validity verdict. -/
def Obligations.DecoderReturnsFieldsEntryAndVerdict : Prop :=
  (∀ (p : Params) (w : Word),
    (decodeWord p w).op = opField w ∧ (decodeWord p w).a = aField w ∧ (decodeWord p w).b = bField w ∧
    (decodeWord p w).entry = catalog p (opField w) ∧
    ((decodeWord p w).valid = true ↔
      ∃ m, catalog p (opField w) = some m ∧ (m.format ≠ .a ∨ (bField w).toNat ≤ 7)) ∧
    ((disassemble p w).isSome = (decodeWord p w).valid)) ∧
  ∀ p : Params, p.wf = true →
    (∀ op, (catalog p op).isSome = true ↔ ∃ m, p.opc m = op) ∧ ∀ m, catalog p (p.opc m) = some m

/-- R81: the opcode alone selects the instruction, and each assigned opcode names exactly one. -/
def Obligations.OpcodeAloneSelects : Prop :=
  ∀ p : Params, p.wf = true →
    (∀ w w' i i', opField w = opField w' → decode p w = .ok i → decode p w' = .ok i' →
      i.mnemonic = i'.mnemonic) ∧
    (∀ w i, decode p w = .ok i → p.opc i.mnemonic = opField w) ∧
    ∀ m m', p.opc m = p.opc m' → m = m'

/-- R76, R77, R78, R85 (D5): the fields a format ignores do not change the decoded instruction. -/
def Obligations.IgnoredFieldsDoNotMatter : Prop :=
  ∀ (p : Params) (w w' : Word) (m : Mnemonic), catalog p (opField w) = some m → opField w' = opField w →
    (m.format = .c → bField w' = bField w → decode p w' = decode p w) ∧
    (m.format = .d → aField w' = aField w → decode p w' = decode p w) ∧
    (m.format = .e → decode p w' = decode p w)

/-- Decode and encode agree on every instruction, with every operand at every value: under every opcode
assignment the spec admits, the word of an instruction decodes to it, and the verdict on it is valid exactly for
a well-formed one. -/
def Obligations.DecodeOfEncodeIsTheInstruction : Prop :=
  ∀ (p : Params) (i : Instr), p.wf = true →
    decode p (encode p i) = .ok i ∧ validWord p (encode p i) = i.wellFormed ∧
      (i.wellFormed = true → disassemble p (encode p i) = some i)

/-- R93 (and the example of R94): `.OPCODE` makes the word of its two bytes, which the encoder gives for both
readings of slot A, and rejects an opcode with no entry. -/
def Obligations.RawWordDirective : Prop :=
  ∀ (p : Params) (msb lsb : Byte),
    (∀ w, rawWord p msb lsb = some w →
      w.toNat = msb.toNat * 256 + lsb.toNat ∧
      encodeFields (msb.extractLsb' 3 5) (msb.extractLsb' 0 5) lsb = w ∧
      encodeFields (msb.extractLsb' 3 5) ((msb.extractLsb' 0 3).setWidth 5) lsb = w) ∧
    (rawWord p msb lsb = none ↔ catalog p (msb.extractLsb' 3 5) = none)

/-- R82, the operand table: the word of each mnemonic, from its operands in the order of the text. ST swaps its
operands and STS takes the address first; format C carries `CFIELD(m)`, formats D and E zeros. -/
def Obligations.TextOperandsFillTheSlots : Prop :=
  ∀ (p : Params) (x y : RegIdx) (v : Byte) (m : Mnemonic),
    (m ∈ [Mnemonic.add, .sub, .cp, .mov, .ld] →
      assemble p [.plain (.regReg m x y)] = .ok ([encodeFields (p.opc m) (x.setWidth 5) (y.setWidth 8)], 0)) ∧
    assemble p [.plain (.regReg .st x y)] = .ok ([encodeFields (p.opc .st) (y.setWidth 5) (x.setWidth 8)], 0) ∧
    (m ∈ [Mnemonic.addi, .subi, .cpi, .ldi, .lds] →
      assemble p [.plain (.regValue m x (.known v))] = .ok ([encodeFields (p.opc m) (x.setWidth 5) v], 0)) ∧
    assemble p [.plain (.valueReg .sts (.known v) x)] = .ok ([encodeFields (p.opc .sts) (x.setWidth 5) v], 0) ∧
    (∀ f, (m, f) ∈ [(Mnemonic.breq, p.cfields.breq), (.brlo, p.cfields.brlo), (.brov, p.cfields.brov),
        (.brlt, p.cfields.brlt), (.jmp, p.cfields.jmp), (.call, p.cfields.call)] →
      assemble p [.plain (.address m (.known v))] = .ok ([encodeFields (p.opc m) (f.setWidth 5) v], 0)) ∧
    (m ∈ [Mnemonic.rol, .ror] →
      assemble p [.plain (.reg m x)] = .ok ([encodeFields (p.opc m) (x.setWidth 5) 0#8], 0)) ∧
    (m ∈ [Mnemonic.ret, .stop] →
      assemble p [.plain (.bare m)] = .ok ([encodeFields (p.opc m) 0#5 0#8], 0))

/-- Words written out from the encodings of 30_encoding.md, one or two per family, under TESTCFG (D28; only ADD's
opcode is the hardware's). -/
def Obligations.WrittenOutWordsDecode : Prop :=
  decodeTableWord 16 0x2805 = some (.add 0 5) ∧ decodeTableWord 16 0x5102 = some (.addi 1 2) ∧
  decodeTableWord 16 0x6807 = some (.rol 0) ∧ decodeTableWord 16 0x1102 = some (.st 1 2) ∧
  decodeTableWord 16 0x2110 = some (.sts 1 0x10) ∧ decodeTableWord 16 0x7F06 = some (.breq 6) ∧
  decodeTableWord 16 0xA00A = some (.call 10) ∧ decodeTableWord 16 0xB0FF = some .stop ∧
  decodeTableWord 16 0x0000 = none

/-! ### Stepping -/

/-- R23: fetch loads the ROM cell at `pc` and advances `pc` modulo 256. -/
def Obligations.FetchLoadsAndAdvancesPc : Prop :=
  ∀ s : State,
    (fetch s).ir = romRead s s.pc ∧ (fetch s).pc.toNat = (s.pc.toNat + 1) % 256 ∧
      (s.pc = 255#8 → (fetch s).pc = 0#8) ∧ (fetch s).upc = 0

/-- R105: `step` executes the decoded instruction whole and ends with a fetch, except after STOP. -/
def Obligations.StepRunsTheDecodedInstruction : Prop :=
  ∀ s : State,
    (Ready s → ∀ i, decode s.params s.ir = .ok i →
      (∀ t, exec i s = .next t → i ≠ .stop →
        step s = .next { t with ir := romRead t t.pc, pc := t.pc + 1, upc := 0 }) ∧
      (∀ t, exec i s = .next t → i = .stop → step s = .next t) ∧
      (∀ f, exec i s = .fault f → step s = .fault f)) ∧
    (Ready s → catalog s.params (opField s.ir) = none → step s = .fault (.unknownOpcode s.pc s.ir)) ∧
    (¬ Ready s → ∃ r, step s = .refused r)

/-- R102: `microstep` runs one micro-op; the last one executes the instruction and fetches, except after STOP. That
an intermediate micro-op changes only `upc` is D16 (log entry 13), that STOP does not fetch and a halted engine is
refused D17, and the fault D20. -/
def Obligations.MicrostepRunsOneMicroOp : Prop :=
  ∀ s : State,
    (s.halted = true ∨ s.fault ≠ none → ∃ r, microstep s = .refused r) ∧
    (s.halted = false → s.fault = none →
      (catalog s.params (opField s.ir) = none → microstep s = .fault (.unknownOpcode s.pc s.ir)) ∧
      ∀ i, decode s.params s.ir = .ok i →
        (s.upc < s.params.microcycles i.mnemonic - 1 → microstep s = .next { s with upc := s.upc + 1 }) ∧
        (¬ s.upc < s.params.microcycles i.mnemonic - 1 →
          (∀ t, exec i s = .next t → i ≠ .stop → microstep s = .next (fetch t)) ∧
          (∀ t, exec i s = .next t → i = .stop → microstep s = .next { t with upc := 0 }) ∧
          (∀ f, exec i s = .fault f → microstep s = .fault f)))

/-- R106: from an instruction boundary, `MICROCYCLES(m)` microsteps give what one step gives, for every micro-op
table and every end, a fault and a refusal included. -/
def Obligations.StepEqualsItsMicrosteps : Prop :=
  ∀ (s : State) (m : Mnemonic), s.upc = 0 → catalog s.params (opField s.ir) = some m →
    microsteps (s.params.microcycles m) s = step s

/-- R108 with R103 and R106: in the middle of an instruction, `fullstep` ends in the state a step from the
boundary before it ends in; at a boundary it is `step`. -/
def Obligations.FullstepCompletesTheInstruction : Prop :=
  ∀ s t : State, upcInRange s → step { s with upc := 0 } = .next t → fullstep s = .done t ()

/-- R107 and R189 (D17, D18): what is refused, and the mark it leaves. That a halted engine with a fault is refused
as halted is the model's choice, log entry 10. -/
def Obligations.PreconditionsAreRefused : Prop :=
  ∀ s : State,
    (s.halted = true →
      (step s = .refused .stepWhileHalted ∧ microstep s = .refused .stepWhileHalted) ∧
      hostStep s = .refused { s with refused := some .stepWhileHalted } ∧
      hostMicrostep s = .refused { s with refused := some .stepWhileHalted } ∧
      fullstep s = .refused { s with refused := some .stepWhileHalted } ∧
      ∀ n, blockstep n s = .refused { s with refused := some .stepWhileHalted }) ∧
    (s.halted = false → s.fault ≠ none →
      (step s = .refused .stepAfterFault ∧ microstep s = .refused .stepAfterFault) ∧
      hostStep s = .refused { s with refused := some .stepAfterFault } ∧
      hostMicrostep s = .refused { s with refused := some .stepAfterFault } ∧
      fullstep s = .refused { s with refused := some .stepAfterFault } ∧
      ∀ n, blockstep n s = .refused { s with refused := some .stepAfterFault }) ∧
    (s.halted = false → s.fault = none → s.upc ≠ 0 →
      step s = .refused .stepMidInstruction ∧
      hostStep s = .refused { s with refused := some .stepMidInstruction })

/-- R186, R188 and R191 (D20): the unknown-opcode fault, its values, and that the host then has the state of the
boundary before it, marked, which no stepping operation leaves. -/
def Obligations.UnknownOpcodeFaultIsPrecise : Prop :=
  ∀ s : State, Ready s → catalog s.params (opField s.ir) = none →
    hostStep s = .faulted { s with fault := some (.unknownOpcode s.pc s.ir) } ∧
    hostMicrostep s = .faulted { s with fault := some (.unknownOpcode s.pc s.ir) } ∧
    ∃ r, hostStep { s with fault := some (.unknownOpcode s.pc s.ir) } = .refused r

/-- R116 and R117 (the order of the checks is D19): the control-transfer class, and a blockstep whose opening
fullstep fetches one of it stops there, before executing it. The stops of the loop are in
`Obligations.BlockstepIsBoundedAndEndsAtABoundary`. -/
def Obligations.BlockstepStopsAtControlTransfers : Prop :=
  (∀ m, isControlTransfer m = true ↔ m ∈ [Mnemonic.jmp, .breq, .brlo, .brov, .brlt, .call]) ∧
  ∀ (s t : State) (m : Mnemonic) (n : Nat), fullstep s = .done t () → catalog t.params (opField t.ir) = some m →
    isControlTransfer m = true → blockstep n s = .done t true

/-- R116 to R118 and R221 (D19): a blockstep that returns has run one fullstep and then at most `n` steps, none of
them from a state that is halted or has fetched a control transfer, so it stops at the first such state; it answers
true exactly where a stopping condition holds, and false only when the whole budget is used. -/
def Obligations.BlockstepIsBoundedAndEndsAtABoundary : Prop :=
  ∀ (n : Nat) (s t : State) (b : Bool), blockstep n s = .done t b →
    t.upc = 0 ∧
    (b = true ↔ t.halted = true ∨ ∃ m, catalog t.params (opField t.ir) = some m ∧ isControlTransfer m = true) ∧
    ∃ u k, fullstep s = .done u () ∧ k ≤ n ∧ Host.Core.run Sys2Proof.core k u = .next t ∧ (b = false → k = n) ∧
      ∀ j v, j < k → Host.Core.run Sys2Proof.core j u = .next v →
        v.halted = false ∧ ∀ m, catalog v.params (opField v.ir) = some m → isControlTransfer m = false

/-- R34 (D16) with R101: `ctrl` is `CSEQ(m)[upc]`, entry 0 right after fetch; microfetch moves it to the next. -/
def Obligations.CtrlFollowsTheSignalSequence : Prop :=
  ∀ (s : State) (m : Mnemonic), catalog s.params (opField s.ir) = some m →
    (s.upc < s.params.microcycles m →
      ∃ x, ((s.params.signals.get m).first :: (s.params.signals.get m).rest)[s.upc]? = some x ∧
        s.ctrl = x) ∧
    (s.upc + 1 < s.params.microcycles m →
      ∃ x, ((s.params.signals.get m).first :: (s.params.signals.get m).rest)[s.upc + 1]? = some x ∧
        (microfetch s).ctrl = x) ∧
    (s.upc = 0 → s.ctrl = (s.params.signals.get m).first)

/-! ### Arithmetic and rotates -/

/-- R126: the two ALU functions, by the 9-bit sum and the bits of the operands and the result. -/
def Obligations.AluFollowsTheNineBitSum : Prop :=
  ∀ a b : Byte,
    ((aluAdd a b).value.toNat = (a.toNat + b.toNat) % 256 ∧
      ((aluAdd a b).flags.z = true ↔ (aluAdd a b).value = 0#8) ∧
      (aluAdd a b).flags.n = (aluAdd a b).value.getLsbD 7 ∧
      ((aluAdd a b).flags.c = true ↔ 256 ≤ a.toNat + b.toNat) ∧
      ((aluAdd a b).flags.v = true ↔
        a.getLsbD 7 = b.getLsbD 7 ∧ (aluAdd a b).value.getLsbD 7 ≠ a.getLsbD 7)) ∧
    ((aluSub a b).value.toNat = (a.toNat + (~~~b).toNat + 1) % 256 ∧
      (aluSub a b).value = a - b ∧
      ((aluSub a b).flags.z = true ↔ (aluSub a b).value = 0#8) ∧
      (aluSub a b).flags.n = (aluSub a b).value.getLsbD 7 ∧
      ((aluSub a b).flags.c = true ↔ 256 ≤ a.toNat + (~~~b).toNat + 1) ∧
      ((aluSub a b).flags.c = true ↔ b.toNat ≤ a.toNat) ∧
      ((aluSub a b).flags.v = true ↔
        a.getLsbD 7 ≠ b.getLsbD 7 ∧ (aluSub a b).value.getLsbD 7 ≠ a.getLsbD 7))

/-- R125 and 90_conflicts.md C4: V is two's-complement overflow and N xor V the sign of the exact result. -/
def Obligations.OverflowIsTwosComplement : Prop :=
  ∀ a b : Byte,
    ((aluAdd a b).flags.v = true ↔ a.toInt + b.toInt < -128 ∨ 127 < a.toInt + b.toInt) ∧
    ((aluSub a b).flags.v = true ↔ a.toInt - b.toInt < -128 ∨ 127 < a.toInt - b.toInt) ∧
    (((aluSub a b).flags.n ^^ (aluSub a b).flags.v) = true ↔ a.toInt < b.toInt)

/-- ADD (41_arithmetic.md section 2), and SUB and SUBI (their operand order and write-back are D8): the result, the
flags, the accumulator, and what they leave unchanged. -/
def Obligations.AddAndSubtract : Prop :=
  ∀ (s : State) (d : RegIdx) (b : Byte),
    (b.toNat ≤ 7 → ∃ t, exec (.add d b) s = .next t ∧
      RegsAre s t (some d) (aluAdd (readReg s d) (readReg s (b.setWidth 3))).value ∧
      t.flags = (aluAdd (readReg s d) (readReg s (b.setWidth 3))).flags ∧
      t.ac = (aluAdd (readReg s d) (readReg s (b.setWidth 3))).value ∧
      KeepsControl s t ∧ KeepsPort s t ∧ KeepsFixed s t) ∧
    (b.toNat ≤ 7 → ∃ t, exec (.sub d b) s = .next t ∧
      RegsAre s t (some d) (aluSub (readReg s d) (readReg s (b.setWidth 3))).value ∧
      t.flags = (aluSub (readReg s d) (readReg s (b.setWidth 3))).flags ∧
      t.ac = (aluSub (readReg s d) (readReg s (b.setWidth 3))).value ∧
      KeepsControl s t ∧ KeepsPort s t ∧ KeepsFixed s t) ∧
    (∃ t, exec (.subi d b) s = .next t ∧
      RegsAre s t (some d) (aluSub (readReg s d) b).value ∧
      t.flags = (aluSub (readReg s d) b).flags ∧ t.ac = (aluSub (readReg s d) b).value ∧
      KeepsControl s t ∧ KeepsPort s t ∧ KeepsFixed s t)

/-- ADDI (41_arithmetic.md section 3; its write-back is D8), with no form shut out, its encoding included. -/
def Obligations.AddImmediate : Prop :=
  (∀ (s : State) (d : RegIdx) (k : Byte),
    ∃ t, exec (.addi d k) s = .next t ∧
      RegsAre s t (some d) (aluAdd (readReg s d) k).value ∧
      t.flags = (aluAdd (readReg s d) k).flags ∧ t.ac = (aluAdd (readReg s d) k).value ∧
      KeepsControl s t ∧ KeepsPort s t ∧ KeepsFixed s t) ∧
  ∀ (p : Params) (w : Word), p.wf = true → opField w = p.opc .addi → decode p w = .ok (.addi (aField w) (bField w))

/-- CP and CPI (D2, D8): the flags and `ac` of a subtraction, and no general register written. -/
def Obligations.CompareWritesNoRegister : Prop :=
  ∀ (s : State) (d : RegIdx) (b : Byte),
    (b.toNat ≤ 7 → ∃ t, exec (.cp d b) s = .next t ∧ t.regs = s.regs ∧
      t.flags = (aluSub (readReg s d) (readReg s (b.setWidth 3))).flags ∧
      t.ac = (aluSub (readReg s d) (readReg s (b.setWidth 3))).value ∧
      KeepsControl s t ∧ KeepsPort s t ∧ KeepsFixed s t) ∧
    (∃ t, exec (.cpi d b) s = .next t ∧ t.regs = s.regs ∧
      t.flags = (aluSub (readReg s d) b).flags ∧ t.ac = (aluSub (readReg s d) b).value ∧
      KeepsControl s t ∧ KeepsPort s t ∧ KeepsFixed s t)

/-- R140: a rotate is a 9-bit rotation of the carry and the register: what leaves the byte is the new carry, and
the old carry fills the vacated end. -/
def Obligations.RotateIsNineBitsThroughCarry : Prop :=
  ∀ (s : State) (d : RegIdx),
    (∃ t, exec (.rol d) s = .next t ∧
      BitVec.ofBool t.flags.c ++ readReg t d = (BitVec.ofBool s.flags.c ++ readReg s d).rotateLeft 1) ∧
    (∃ t, exec (.ror d) s = .next t ∧
      BitVec.ofBool t.flags.c ++ readReg t d = (BitVec.ofBool s.flags.c ++ readReg s d).rotateRight 1)

/-- ROL and ROR (42_rotate.md section 2; Z and N are D10, the bits of V are D11): result, flags and frame. -/
def Obligations.RotatesWriteRegisterAndFlags : Prop :=
  ∀ (s : State) (d : RegIdx),
    (∃ t, exec (.rol d) s = .next t ∧
      RegsAre s t (some d) (readReg s d <<< 1 ||| (BitVec.ofBool s.flags.c).setWidth 8) ∧
      t.flags.c = (readReg s d).getLsbD 7 ∧ t.flags.v = ((readReg s d).getLsbD 7 ^^ (readReg s d).getLsbD 6) ∧
      (t.flags.z = true ↔ readReg t d = 0#8) ∧ t.flags.n = (readReg t d).getLsbD 7 ∧
      KeepsControl s t ∧ KeepsPort s t ∧ KeepsFixed s t) ∧
    (∃ t, exec (.ror d) s = .next t ∧
      RegsAre s t (some d) ((BitVec.ofBool s.flags.c).setWidth 8 <<< 7 ||| readReg s d >>> 1) ∧
      t.flags.c = (readReg s d).getLsbD 0 ∧ t.flags.v = ((readReg s d).getLsbD 7 ^^ (readReg s d).getLsbD 0) ∧
      (t.flags.z = true ↔ readReg t d = 0#8) ∧ t.flags.n = (readReg t d).getLsbD 7 ∧
      KeepsControl s t ∧ KeepsPort s t ∧ KeepsFixed s t)

/-- R145's corner case: ROR undoes ROL on the carry and the register, and every other register is as before. -/
def Obligations.RorUndoesRol : Prop :=
  ∀ (s : State) (d : RegIdx), ∃ t u, exec (.rol d) s = .next t ∧ exec (.ror d) t = .next u ∧
    u.flags.c = s.flags.c ∧ ∀ q, readReg u q = readReg s q

/-! ### Data transfer and the data-memory port -/

/-- R52: the read hook is called once; RAM answers only where the hook does not control the address. -/
def Obligations.MemReadAsksTheHookOnce : Prop :=
  ∀ (s : State) (a : Addr) (r : ReadAnswer) (h : Hooks), s.hooks.askRead = some (r, h) →
    ∃ v t, memRead s a = some (v, t) ∧
      (r = .notControlled → v = ramRead s a) ∧ (∀ x, r = .byte x → v = x) ∧
      t = { s with hooks := h, hookCalls := s.hookCalls ++ [.read a] }

/-- R53: the write hook is called once; RAM is written only if it did not handle the write. -/
def Obligations.MemWriteAsksTheHookOnce : Prop :=
  ∀ (s : State) (a : Addr) (v : Byte) (handled : Bool) (h : Hooks), s.hooks.askWrite = some (handled, h) →
    ∃ t, memWrite s a v = some t ∧ Stored s t a v handled ∧
      { t with ram := s.ram } = { s with hooks := h, hookCalls := s.hookCalls ++ [.write a v] }

/-- R56, R57 (D14) and R190: the six users of the port are stuck, with no next state and no mark, when the hook they
call never returns. -/
def Obligations.HungHookLeavesNoNextState : Prop :=
  ∀ (s : State) (r : RegIdx) (b t : Byte),
    (s.hooks.askRead = none →
      (b.toNat ≤ 7 → exec (.ld r b) s = .fault .hookNeverReturns) ∧
      exec (.lds r b) s = .fault .hookNeverReturns ∧ exec .ret s = .fault .hookNeverReturns) ∧
    (s.hooks.askWrite = none →
      (b.toNat ≤ 7 → exec (.st r b) s = .fault .hookNeverReturns) ∧
      exec (.sts r b) s = .fault .hookNeverReturns ∧ exec (.call t) s = .fault .hookNeverReturns) ∧
    reply s (.fault .hookNeverReturns) = .hung

/-- MOV and LDI (D9, D12): the register written and what they leave unchanged. -/
def Obligations.MoveAndLoadImmediate : Prop :=
  ∀ (s : State) (d : RegIdx) (b : Byte),
    (b.toNat ≤ 7 → ∃ t, exec (.mov d b) s = .next t ∧ RegsAre s t (some d) (readReg s (b.setWidth 3)) ∧
      t.flags = s.flags ∧ KeepsControl s t ∧ KeepsPort s t ∧ KeepsFixed s t) ∧
    (∃ t, exec (.ldi d b) s = .next t ∧ RegsAre s t (some d) b ∧
      t.flags = s.flags ∧ KeepsControl s t ∧ KeepsPort s t ∧ KeepsFixed s t)

/-- LD and LDS (43_data_transfer.md section 2; LDS is D12): the address, the byte through `mar` and `mdr`, the
register, the one hook call, and what they leave unchanged, all of RAM included. -/
def Obligations.LoadsReadThePort : Prop :=
  ∀ (s : State) (d : RegIdx) (b : Byte) (r : ReadAnswer) (h : Hooks), s.hooks.askRead = some (r, h) →
    (b.toNat ≤ 7 → ∃ t, exec (.ld d b) s = .next t ∧
      RegsAre s t (some d) (readValue s (readReg s (b.setWidth 3)) r) ∧
      t.mar = readReg s (b.setWidth 3) ∧ t.mdr = readValue s (readReg s (b.setWidth 3)) r ∧
      t.hooks = h ∧ t.hookCalls = s.hookCalls ++ [.read (readReg s (b.setWidth 3))] ∧
      t.ram = s.ram ∧ t.flags = s.flags ∧ KeepsControl s t ∧ KeepsFixed s t) ∧
    (∃ t, exec (.lds d b) s = .next t ∧
      RegsAre s t (some d) (readValue s b r) ∧ t.mar = b ∧ t.mdr = readValue s b r ∧
      t.hooks = h ∧ t.hookCalls = s.hookCalls ++ [.read b] ∧
      t.ram = s.ram ∧ t.flags = s.flags ∧ KeepsControl s t ∧ KeepsFixed s t)

/-- ST (43_data_transfer.md section 2; its fault check is D21): the address is the register field B names, the byte
the register field A names. -/
def Obligations.StoreIndirectWritesThePort : Prop :=
  ∀ (s : State) (x : RegIdx) (b : Byte) (handled : Bool) (h : Hooks), s.hooks.askWrite = some (handled, h) →
    b.toNat ≤ 7 → ∃ t, exec (.st x b) s = .next t ∧
      Stored s t (readReg s (b.setWidth 3)) (readReg s x) handled ∧
      t.mar = readReg s (b.setWidth 3) ∧ t.mdr = readReg s x ∧
      t.hooks = h ∧ t.hookCalls = s.hookCalls ++ [.write (readReg s (b.setWidth 3)) (readReg s x)] ∧
      t.regs = s.regs ∧ t.flags = s.flags ∧ KeepsControl s t ∧ KeepsFixed s t

/-- R156: STS, its syntax, its encoding and the hung hook included. -/
def Obligations.StoreDirectWritesThePort : Prop :=
  (∀ (s : State) (x : RegIdx) (b : Byte) (handled : Bool) (h : Hooks), s.hooks.askWrite = some (handled, h) →
    ∃ t, exec (.sts x b) s = .next t ∧
      Stored s t b (readReg s x) handled ∧ t.mar = b ∧ t.mdr = readReg s x ∧
      t.hooks = h ∧ t.hookCalls = s.hookCalls ++ [.write b (readReg s x)] ∧
      t.regs = s.regs ∧ t.flags = s.flags ∧ KeepsControl s t ∧ KeepsFixed s t) ∧
  (∀ (s : State) (x : RegIdx) (b : Byte), s.hooks.askWrite = none → exec (.sts x b) s = .fault .hookNeverReturns) ∧
  (∀ (p : Params) (w : Word), p.wf = true → opField w = p.opc .sts → decode p w = .ok (.sts (aField w) (bField w))) ∧
  ∀ (p : Params) (x : RegIdx) (b : Byte),
    assemble p [.plain (.valueReg .sts (.known b) x)] = .ok ([encodeFields (p.opc .sts) (x.setWidth 5) b], 0)

/-- R62: a load after a store to the same cell reads the byte stored, and other cells are as before. -/
def Obligations.LoadAfterStoreReadsTheByte : Prop :=
  ∀ (s : State) (x d : RegIdx) (a : Byte), s.hooks = .stubs → Memory.wf s.ram = true →
    ∃ t u, exec (.sts x a) s = .next t ∧ exec (.lds d a) t = .next u ∧ readReg u d = readReg s x ∧
      u.hookCalls = s.hookCalls ++ [.write a (readReg s x), .read a] ∧
      ∀ b, b ≠ a → ramRead u b = ramRead s b

/-! ### Control flow -/

/-- R112 and R171: the four conditions over the flags, and a conditional branch, which goes to its target when its
condition holds and otherwise leaves `pc` at the next address. The opcode fixes the condition and field A is
ignored. The polarity of LO is a parameter (R113), that of the others D7; that a branch writes no flag is D9. -/
def Obligations.BranchesFollowTheirCondition : Prop :=
  (∀ (lo : Bool) (f : Flags),
    (holdsCond lo f .eq = true ↔ f.z = true) ∧ (holdsCond lo f .lo = true ↔ f.c = lo) ∧
    (holdsCond lo f .ov = true ↔ f.v = true) ∧ (holdsCond lo f .lt = true ↔ (f.v ^^ f.n) = true)) ∧
  (∀ (s : State) (g : Addr) (i : Instr) (c : Condition),
    (i, c) ∈ [(Instr.breq g, Condition.eq), (.brlo g, .lo), (.brov g, .ov), (.brlt g, .lt)] →
    ∃ t, exec i s = .next t ∧
      t.pc = (if holdsCond s.params.loTakenWhenC s.flags c then g else s.pc) ∧
      t.sp = s.sp ∧ t.regs = s.regs ∧ t.flags = s.flags ∧ KeepsRunning s t ∧ KeepsPort s t ∧ KeepsFixed s t) ∧
  ∀ (p : Params) (w : Word), p.wf = true →
    (opField w = p.opc .breq → decode p w = .ok (.breq (bField w))) ∧
    (opField w = p.opc .brlo → decode p w = .ok (.brlo (bField w))) ∧
    (opField w = p.opc .brov → decode p w = .ok (.brov (bField w))) ∧
    (opField w = p.opc .brlt → decode p w = .ok (.brlt (bField w)))

/-- R114 (D6, D7, D8) with R172 to R175: after CP the branches decide equality, signed less-than, and the unsigned
comparison in the polarity of the parameter. -/
def Obligations.BranchesAfterCompareDecideTheOrder : Prop :=
  ∀ (s : State) (d : RegIdx) (b : Byte) (g : Addr), b.toNat ≤ 7 →
    ∃ t, exec (.cp d b) s = .next t ∧
      (∃ u, exec (.breq g) t = .next u ∧
        u.pc = if readReg s d = readReg s (b.setWidth 3) then g else s.pc) ∧
      (∃ u, exec (.brlt g) t = .next u ∧
        u.pc = if (readReg s d).toInt < (readReg s (b.setWidth 3)).toInt then g else s.pc) ∧
      (∃ u, exec (.brlo g) t = .next u ∧
        u.pc = if decide ((readReg s (b.setWidth 3)).toNat ≤ (readReg s d).toNat) = s.params.loTakenWhenC
          then g else s.pc) ∧
      (∃ u, exec (.brov g) t = .next u ∧
        u.pc = if (readReg s d).toInt - (readReg s (b.setWidth 3)).toInt < -128 ∨
            127 < (readReg s d).toInt - (readReg s (b.setWidth 3)).toInt then g else s.pc)

/-- JMP (44_control_flow.md section 2; its format is D2), its ignored field A included. -/
def Obligations.JumpGoesToItsTarget : Prop :=
  (∀ (s : State) (g : Addr), ∃ t, exec (.jmp g) s = .next t ∧ t.pc = g ∧
    t.sp = s.sp ∧ t.regs = s.regs ∧ t.flags = s.flags ∧ KeepsRunning s t ∧ KeepsPort s t ∧ KeepsFixed s t) ∧
  ∀ (p : Params) (w : Word), p.wf = true → opField w = p.opc .jmp → decode p w = .ok (.jmp (bField w))

/-- CALL (44_control_flow.md section 3; D13, D14): the return address goes through the port to the cell at `sp`, `sp`
moves down and `pc` is the target. -/
def Obligations.CallPushesTheReturnAddress : Prop :=
  ∀ (s : State) (g : Addr) (handled : Bool) (h : Hooks), s.hooks.askWrite = some (handled, h) →
    ∃ t, exec (.call g) s = .next t ∧ t.pc = g ∧ t.sp = s.sp - 1#8 ∧ Stored s t s.sp s.pc handled ∧
      t.hooks = h ∧ t.hookCalls = s.hookCalls ++ [.write s.sp s.pc] ∧
      t.regs = s.regs ∧ t.flags = s.flags ∧ KeepsRunning s t ∧ KeepsFixed s t

/-- RET (44_control_flow.md section 3; D13, D14): `sp` moves up and `pc` is the byte the port reads there. -/
def Obligations.ReturnPopsTheAddress : Prop :=
  ∀ (s : State) (r : ReadAnswer) (h : Hooks), s.hooks.askRead = some (r, h) →
    ∃ t, exec .ret s = .next t ∧ t.sp = s.sp + 1#8 ∧ t.pc = readValue s (s.sp + 1#8) r ∧
      t.hooks = h ∧ t.hookCalls = s.hookCalls ++ [.read (s.sp + 1#8)] ∧
      t.ram = s.ram ∧ t.regs = s.regs ∧ t.flags = s.flags ∧ KeepsRunning s t ∧ KeepsFixed s t

/-- R181: with the default hooks, a RET fetched right after a CALL returns to the instruction after the CALL and
leaves `sp` as it was, for every starting `sp`. -/
def Obligations.CallThenReturnRestoresPcAndSp : Prop :=
  ∀ (s : State) (g : Addr), s.hooks = .stubs → Memory.wf s.ram = true →
    ∃ t u, exec (.call g) s = .next t ∧ exec .ret (fetch t) = .next u ∧ u.pc = s.pc ∧ u.sp = s.sp ∧
      (∀ q, readReg u q = readReg s q) ∧ u.flags = s.flags ∧ ∀ a, a ≠ s.sp → ramRead u a = ramRead s a

/-- STOP (44_control_flow.md section 4; D17): the halted flag, `upc` 0, no fetch, and nothing else but the scratch
registers; and the step that runs it ends there. -/
def Obligations.StopHaltsWithoutFetch : Prop :=
  ∀ s : State,
    (∃ t, exec .stop s = .next t ∧ t.halted = true ∧ t.upc = 0 ∧ t.pc = s.pc ∧ t.sp = s.sp ∧ t.regs = s.regs ∧
      t.flags = s.flags ∧ KeepsPort s t ∧ KeepsFixed s t) ∧
    (Ready s → decode s.params s.ir = .ok .stop →
      ∃ t, step s = .next t ∧ t.halted = true ∧ t.ir = s.ir ∧ t.pc = s.pc ∧ t.upc = 0)

/-! ### What instructions cannot do -/

/-- R110, R186, R187 and R191 (D21): every format-A instruction with field B above 7 faults before any write, and
the fault carries `pc` and `ir`. Whether a step, the last microstep or a fullstep in the middle of the instruction
meets it, the host then has the state of the boundary before the word (D16), marked. -/
def Obligations.FormatAFaultsOnAMissingRegister : Prop :=
  ∀ (s : State) (d : RegIdx) (b : Byte), 7 < b.toNat →
    ∀ i ∈ [Instr.add d b, .sub d b, .cp d b, .mov d b, .ld d b, .st d b],
      exec i s = .fault (.registerIndexOutOfRange s.pc s.ir) ∧
      (s.halted = false → s.fault = none → decode s.params s.ir = .ok i →
        (s.upc = 0 → hostStep s = .faulted { s with fault := some (.registerIndexOutOfRange s.pc s.ir) }) ∧
        (s.upc + 1 = s.params.microcycles i.mnemonic →
          hostMicrostep s = .faulted { s with fault := some (.registerIndexOutOfRange s.pc s.ir), upc := 0 }) ∧
        (s.upc < s.params.microcycles i.mnemonic →
          fullstep s = .faulted { s with fault := some (.registerIndexOutOfRange s.pc s.ir), upc := 0 }))

/-- Every instruction completes: a well-formed one whose hook call, if it makes one, returns has a next state, and
no instruction is ever refused. -/
def Obligations.WellFormedInstructionsComplete : Prop :=
  ∀ (i : Instr) (s : State),
    (i.wellFormed = true → (loadAddress s i ≠ none → readReturns s) → (storeAddress s i ≠ none → writeReturns s) →
      ∃ t, exec i s = .next t) ∧
    ∀ r, exec i s ≠ .refused r

/-- R32: fetch writes `ir`, and nothing else does: no instruction, no microfetch, and no host operation but those
that end with a fetch; and the three fields of `ir`. That the resets and a successful load end with a fetch is D22
and D23 (log entries 12 and 17). -/
def Obligations.OnlyFetchWritesIr : Prop :=
  (∀ s : State, (opField s.ir).toNat = s.ir.toNat / 2 ^ 11 ∧ (aField s.ir).toNat = s.ir.toNat / 2 ^ 8 % 2 ^ 3 ∧
    (bField s.ir).toNat = s.ir.toNat % 2 ^ 8) ∧
  (∀ s : State, (fetch s).ir = romRead s s.pc) ∧
  (∀ (i : Instr) (s t : State), exec i s = .next t → t.ir = s.ir) ∧
  (∀ s : State, (microfetch s).ir = s.ir ∧ (afterRejectedLoad s).ir = s.ir ∧ ∀ h, (installHooks h s).ir = s.ir) ∧
  ∀ s : State, (∃ u, softReset s = fetch u) ∧ (∀ k, ∃ u, hardReset k s = fetch u) ∧
    ∀ ws t, load ws s = (.ok, t) → ∃ u, t = fetch u

/-- R45, R64: no instruction, step or microstep writes ROM, nor the parameters of the machine. -/
def Obligations.NoInstructionWritesRom : Prop :=
  (∀ (i : Instr) (s t : State), exec i s = .next t → KeepsFixed s t) ∧
  (∀ s t : State, step s = .next t → t.rom = s.rom ∧ t.params = s.params ∧ t.fault = s.fault ∧
    t.refused = s.refused) ∧
  ∀ s t : State, microstep s = .next t → t.rom = s.rom ∧ t.params = s.params ∧ t.fault = s.fault ∧
    t.refused = s.refused

/-- The tables of R22 and R29 (D9, D10), with `pc` (R24) and `sp` (R26): which instructions change a register or
the flags. -/
def Obligations.RegistersChangeOnlyWhereStated : Prop :=
  ∀ (i : Instr) (s t : State), exec i s = .next t →
    (∀ q, destReg i ≠ some q → readReg t q = readReg s q) ∧
    (writesFlags i = false → t.flags = s.flags) ∧ (writesPc i = false → t.pc = s.pc) ∧
      (writesSp i = false → t.sp = s.sp)

/-- Every RAM cell but the one ST, STS or CALL stores to is unchanged, and only the six users of the port call a
hook, once each (R57 is D14). -/
def Obligations.OnlyTheStoredCellChanges : Prop :=
  ∀ (i : Instr) (s t : State), exec i s = .next t →
    (storeAddress s i = none → t.ram = s.ram) ∧
    (∀ a, storeAddress s i = some a → ∀ b, b ≠ a → ramRead t b = ramRead s b) ∧
    (storeAddress s i = none → loadAddress s i = none → t.hooks = s.hooks ∧ t.hookCalls = s.hookCalls) ∧
    (∀ a, loadAddress s i = some a → t.hookCalls = s.hookCalls ++ [.read a]) ∧
    (∀ a, storeAddress s i = some a → ∃ v, t.hookCalls = s.hookCalls ++ [.write a v])

/-- R35: STOP sets `halted`, no instruction clears it, and both resets do. -/
def Obligations.OnlyStopSetsHaltedAndOnlyResetsClearIt : Prop :=
  (∀ (i : Instr) (s t : State), exec i s = .next t → t.halted = (s.halted || decide (i = .stop))) ∧
  ∀ s : State, (softReset s).halted = false ∧ ∀ k, (hardReset k s).halted = false

/-- R44: `ac`, `mar` and `mdr` are never read as operands: what an instruction does to everything else does not
depend on them. -/
def Obligations.ScratchRegistersAreNeverRead : Prop :=
  ∀ (i : Instr) (s s' t : State), dropScratch s' = dropScratch s → exec i s = .next t →
    ∃ t', exec i s' = .next t' ∧ dropScratch t' = dropScratch t

/-! ### Invariants -/

/-- Every step keeps the invariant: both memories in canonical form, an admissible opcode assignment, the micro-op
counter in its range. So does every microstep, in the middle of an instruction and at its end. -/
def Obligations.StepKeepsTheInvariant : Prop :=
  ∀ s t : State, EngineInv s →
    (step s = .next t → EngineInv t) ∧ (microstep s = .next t → EngineInv t)

/-- The machine right after reset meets the invariant, and is ready to step. -/
def Obligations.ResetMeetsTheInvariant : Prop := EngineInv State.reset ∧ Ready State.reset

/-- The host's operations keep the invariant, and either reset establishes it for a created engine (R213). -/
def Obligations.HostOperationsKeepTheInvariant : Prop :=
  (∀ s : State, EngineInv s →
    EngineInv (softReset s) ∧ (∀ k, EngineInv (hardReset k s)) ∧ (∀ h, EngineInv (installHooks h s)) ∧
      ∀ ws, EngineInv (load ws s).2) ∧
  ∀ p : Params, p.wf = true → EngineInv (softReset (create p)) ∧ ∀ k, EngineInv (hardReset k (create p))

/-- R121: every step ends at an instruction boundary; unless it halted, `ir` is the word in the cell before `pc`. -/
def Obligations.EveryStepEndsAtABoundary : Prop :=
  ∀ s t : State, step s = .next t →
    t.upc = 0 ∧ (t.halted = false → FetchedWord t) ∧ (t.halted = true → t.ir = s.ir ∧ t.pc = s.pc)

/-! ### Reset and load -/

/-- R40, R205 to R209 (D13, D22): what the two resets leave, and that the model's reset state is what a hard reset
leaves of a created engine. -/
def Obligations.ResetsLeaveTheStatedValues : Prop :=
  (∀ s : State,
    (softReset s = { s with pc := 1#8, sp := 0xFF#8, halted := false, ir := romRead s 0#8, upc := 0 }) ∧
    ∀ keep : Bool,
      (∀ q, readReg (hardReset keep s) q = 0#8) ∧ (∀ a, ramRead (hardReset keep s) a = 0#8) ∧
      (hardReset keep s).flags = ⟨false, false, false, false⟩ ∧
      (hardReset keep s).ac = 0#8 ∧ (hardReset keep s).mar = 0#8 ∧ (hardReset keep s).mdr = 0#8 ∧
      (hardReset keep s).pc = 1#8 ∧ (hardReset keep s).sp = 0xFF#8 ∧ (hardReset keep s).upc = 0 ∧
      (hardReset keep s).halted = false ∧
      (∀ a, romRead (hardReset keep s) a = if keep then romRead s a else 0#16) ∧
      (hardReset keep s).ir = (if keep then romRead s 0#8 else 0#16) ∧
      (hardReset keep s).fault = s.fault ∧ (hardReset keep s).refused = s.refused ∧
      (hardReset keep s).hooks = s.hooks) ∧
  hardReset false (create resetParams) = State.reset

/-- R210 (D23) and R192: load validates, places word i at address i, keeps the other cells and ends with a soft
reset; a rejected load returns its error and leaves everything but ROM. -/
def Obligations.LoadValidatesAndPlaces : Prop :=
  ∀ (ws : List Word) (s : State), Memory.wf s.rom = true →
    (256 < ws.length → (load ws s).1 = .oversize) ∧
    (ws.length ≤ 256 → (∃ w ∈ ws, catalog s.params (opField w) = none) → (load ws s).1 = .unknownOpcode) ∧
    (ws.length ≤ 256 → (∀ w ∈ ws, catalog s.params (opField w) ≠ none) →
      (load ws s).1 = .ok ∧
      (∀ (k : Nat) (hk : k < ws.length), romRead (load ws s).2 (BitVec.ofNat 8 k) = ws[k]) ∧
      (∀ a : Addr, ws.length ≤ a.toNat → romRead (load ws s).2 a = romRead s a) ∧
      (load ws s).2 = { s with rom := (load ws s).2.rom, pc := 1#8, sp := 0xFF#8, halted := false, upc := 0,
                               ir := romRead (load ws s).2 0#8 }) ∧
    ((load ws s).1 ≠ .ok →
      (load ws s).2 = { s with rom := (load ws s).2.rom, draws := (load ws s).2.draws })

/-- R211 (D22, D23): the launch state of a program of 1 to 256 words with assigned opcodes. -/
def Obligations.LaunchStateOfAProgram : Prop :=
  ∀ (p : Params) (h : Hooks) (w : Word) (ws : List Word), ws.length < 256 →
    (∀ x ∈ w :: ws, catalog p (opField x) ≠ none) →
    ∃ s, launch p h (w :: ws) = (.ok, s) ∧ Ready s ∧ s.refused = none ∧
      (∀ q, readReg s q = 0#8) ∧ s.flags = ⟨false, false, false, false⟩ ∧
      s.ac = 0#8 ∧ s.mar = 0#8 ∧ s.mdr = 0#8 ∧ (∀ a, ramRead s a = 0#8) ∧
      (∀ (k : Nat) (hk : k < (w :: ws).length), romRead s (BitVec.ofNat 8 k) = (w :: ws)[k]) ∧
      (∀ a : Addr, (w :: ws).length ≤ a.toNat → romRead s a = 0#16) ∧
      s.pc = 1#8 ∧ s.sp = 0xFF#8 ∧ s.ir = w ∧ s.hooks = h ∧ s.params = p

/-- R103, R202 and R214 (D16; log entry 13): what the host reads. At an instruction boundary it is every field of
R42; in the middle of an instruction `ir`, `upc`, `halted` and the marks are the engine's and the rest is any value.
`ctrl` is the engine's everywhere. -/
def Obligations.HostReadsTheState : Prop :=
  ∀ s : State,
    (readState s).ir = s.ir ∧ (readState s).upc = s.upc ∧ (readState s).halted = s.halted ∧
    (readState s).fault = s.fault ∧ (readState s).refused = s.refused ∧ (readState s).ctrl = s.ctrl ∧
    (s.upc = 0 →
      (readState s).regs = s.regs ∧ (readState s).pc = s.pc ∧ (readState s).sp = s.sp ∧
      (readState s).flags = s.flags ∧ (readState s).ac = s.ac ∧ (readState s).mar = s.mar ∧
      (readState s).mdr = s.mdr ∧ (readState s).rom = s.rom ∧ (readState s).ram = s.ram)
end

