-- ==== Sys2Proof/Laws/Codec.lean ====
section
/-! SUPPORT. The laws of the codec: the fields of an encoded word, the catalog under an admissible opcode
assignment, and the instruction its own slots stand for. -/

namespace Sys2Proof

/-! ### Fields -/

theorem opField_toNat (w : Word) : (opField w).toNat = w.toNat / 2 ^ 11 := by
  have := w.isLt
  simp only [opField, BitVec.extractLsb'_toNat, Nat.shiftRight_eq_div_pow]
  omega

theorem aField_toNat (w : Word) : (aField w).toNat = w.toNat / 2 ^ 8 % 2 ^ 3 := by
  simp only [aField, BitVec.extractLsb'_toNat, Nat.shiftRight_eq_div_pow]

theorem bField_toNat (w : Word) : (bField w).toNat = w.toNat % 2 ^ 8 := by
  simp [bField, BitVec.extractLsb'_toNat]

/-- The or-semantics of the encoder, field by field: slot A runs into the opcode (R70). -/
theorem opField_encodeFields (op : Opcode) (a : BitVec 5) (b : Byte) :
    opField (encodeFields op a b) = op ||| a >>> 3 := by
  ext i hi
  interval_cases i <;> simp [opField, encodeFields]

theorem aField_encodeFields (op : Opcode) (a : BitVec 5) (b : Byte) :
    aField (encodeFields op a b) = a.setWidth 3 := by
  ext i hi
  interval_cases i <;> simp [aField, encodeFields]

@[simp] theorem bField_encodeFields (op : Opcode) (a : BitVec 5) (b : Byte) :
    bField (encodeFields op a b) = b := by
  ext i hi
  interval_cases i <;> simp [bField, encodeFields]

/-- With slot A a register index nothing overlaps (R72). -/
@[simp] theorem opField_encodeFields_reg (op : Opcode) (a : RegIdx) (b : Byte) :
    opField (encodeFields op (a.setWidth 5) b) = op := by
  rw [opField_encodeFields]
  ext i hi
  interval_cases i <;> simp

@[simp] theorem aField_encodeFields_reg (op : Opcode) (a : RegIdx) (b : Byte) :
    aField (encodeFields op (a.setWidth 5) b) = a := by
  rw [aField_encodeFields]
  ext i hi
  interval_cases i <;> simp

/-! ### Catalog -/

theorem mem_all (m : Mnemonic) : m ∈ Mnemonic.all := by
  cases m <;> decide

/-- An entry the catalog gives is one with that opcode. -/
theorem opc_of_catalog {p : Params} {op : Opcode} {m : Mnemonic} (h : catalog p op = some m) : p.opc m = op := by
  simpa using List.find?_some h

theorem catalog_eq_none {p : Params} {op : Opcode} : catalog p op = none ↔ ∀ m, p.opc m ≠ op := by
  simp only [catalog, List.find?_eq_none, beq_iff_eq]
  exact ⟨fun h m => h m (mem_all m), fun h m _ => h m⟩

/-- In an admissible assignment no two mnemonics share an opcode (R80). -/
theorem opc_injective {p : Params} (h : p.wf = true) {m n : Mnemonic} (e : p.opc m = p.opc n) : m = n := by
  simp only [Params.wf, Params.opcodesDistinct, Bool.and_eq_true, decide_eq_true_eq] at h
  exact List.inj_on_of_nodup_map h.1 (mem_all m) (mem_all n) e

/-- In an admissible assignment the entry of `OPC(m)` is m (R87). -/
theorem catalog_opc {p : Params} (h : p.wf = true) (m : Mnemonic) : catalog p (p.opc m) = some m := by
  cases e : catalog p (p.opc m) with
  | none => exact absurd rfl (catalog_eq_none.mp e m)
  | some n => rw [opc_injective h (opc_of_catalog e)]

/-! ### Instructions and their slots -/

@[simp] theorem ofFields_mnemonic (m : Mnemonic) (a : RegIdx) (b : Byte) : (Instr.ofFields m a b).mnemonic = m := by
  cases m <;> rfl

/-- An instruction is the one its own slots stand for. -/
theorem ofFields_slots (p : Params) (i : Instr) : Instr.ofFields i.mnemonic (slotA p i) (slotB i) = i := by
  cases i <;> rfl

/-- The operand part of the verdict, from the descriptor's format (R90). -/
theorem wellFormed_ofFields (m : Mnemonic) (a : RegIdx) (b : Byte) :
    (Instr.ofFields m a b).wellFormed = (m.format != .a || isRegField b) := by
  cases m <;> rfl

theorem decode_eq_ok {p : Params} {w : Word} {i : Instr} :
    decode p w = .ok i ↔ ∃ m, catalog p (opField w) = some m ∧ i = Instr.ofFields m (aField w) (bField w) := by
  unfold decode
  cases h : catalog p (opField w) with
  | none => simp
  | some m => simp [eq_comm]

/-- The decoder's answer where the catalog has an entry. -/
theorem decode_of_catalog {p : Params} {w : Word} {m : Mnemonic} (h : catalog p (opField w) = some m) :
    decode p w = .ok (Instr.ofFields m (aField w) (bField w)) :=
  decode_eq_ok.mpr ⟨m, h, rfl⟩

/-- The decoder rejects a word by name exactly where the catalog has no entry (R88). -/
theorem decode_of_no_entry {p : Params} {w : Word} (h : catalog p (opField w) = none) :
    decode p w = .error (.unknownOpcode (opField w)) := by
  simp [decode, h]

@[simp] theorem isRegField_iff (b : Byte) : isRegField b = true ↔ b.toNat ≤ 7 := by
  simp [isRegField]

end Sys2Proof
end

