-- ==== Sys2Proof/Laws/State.lean ====
section
/-! SUPPORT. One lemma per field per named update of `State`, so that no proof unfolds a record update. -/

namespace Sys2Proof.Machine

variable (s : State)

/-! ### writeReg -/

@[simp] theorem writeReg_regs (r : RegIdx) (v : Byte) : (writeReg s r v).regs = s.regs.set r.toNat v r.isLt := rfl
@[simp] theorem writeReg_pc (r : RegIdx) (v : Byte) : (writeReg s r v).pc = s.pc := rfl
@[simp] theorem writeReg_sp (r : RegIdx) (v : Byte) : (writeReg s r v).sp = s.sp := rfl
@[simp] theorem writeReg_flags (r : RegIdx) (v : Byte) : (writeReg s r v).flags = s.flags := rfl
@[simp] theorem writeReg_ac (r : RegIdx) (v : Byte) : (writeReg s r v).ac = s.ac := rfl
@[simp] theorem writeReg_mar (r : RegIdx) (v : Byte) : (writeReg s r v).mar = s.mar := rfl
@[simp] theorem writeReg_mdr (r : RegIdx) (v : Byte) : (writeReg s r v).mdr = s.mdr := rfl
@[simp] theorem writeReg_ir (r : RegIdx) (v : Byte) : (writeReg s r v).ir = s.ir := rfl
@[simp] theorem writeReg_upc (r : RegIdx) (v : Byte) : (writeReg s r v).upc = s.upc := rfl
@[simp] theorem writeReg_halted (r : RegIdx) (v : Byte) : (writeReg s r v).halted = s.halted := rfl
@[simp] theorem writeReg_rom (r : RegIdx) (v : Byte) : (writeReg s r v).rom = s.rom := rfl
@[simp] theorem writeReg_ram (r : RegIdx) (v : Byte) : (writeReg s r v).ram = s.ram := rfl
@[simp] theorem writeReg_fault (r : RegIdx) (v : Byte) : (writeReg s r v).fault = s.fault := rfl
@[simp] theorem writeReg_refused (r : RegIdx) (v : Byte) : (writeReg s r v).refused = s.refused := rfl
@[simp] theorem writeReg_hooks (r : RegIdx) (v : Byte) : (writeReg s r v).hooks = s.hooks := rfl
@[simp] theorem writeReg_hookCalls (r : RegIdx) (v : Byte) : (writeReg s r v).hookCalls = s.hookCalls := rfl
@[simp] theorem writeReg_draws (r : RegIdx) (v : Byte) : (writeReg s r v).draws = s.draws := rfl
@[simp] theorem writeReg_params (r : RegIdx) (v : Byte) : (writeReg s r v).params = s.params := rfl

/-! ### writeFlags -/

@[simp] theorem writeFlags_regs (f : Flags) : (writeFlags s f).regs = s.regs := rfl
@[simp] theorem writeFlags_pc (f : Flags) : (writeFlags s f).pc = s.pc := rfl
@[simp] theorem writeFlags_sp (f : Flags) : (writeFlags s f).sp = s.sp := rfl
@[simp] theorem writeFlags_flags (f : Flags) : (writeFlags s f).flags = f := rfl
@[simp] theorem writeFlags_ac (f : Flags) : (writeFlags s f).ac = s.ac := rfl
@[simp] theorem writeFlags_mar (f : Flags) : (writeFlags s f).mar = s.mar := rfl
@[simp] theorem writeFlags_mdr (f : Flags) : (writeFlags s f).mdr = s.mdr := rfl
@[simp] theorem writeFlags_ir (f : Flags) : (writeFlags s f).ir = s.ir := rfl
@[simp] theorem writeFlags_upc (f : Flags) : (writeFlags s f).upc = s.upc := rfl
@[simp] theorem writeFlags_halted (f : Flags) : (writeFlags s f).halted = s.halted := rfl
@[simp] theorem writeFlags_rom (f : Flags) : (writeFlags s f).rom = s.rom := rfl
@[simp] theorem writeFlags_ram (f : Flags) : (writeFlags s f).ram = s.ram := rfl
@[simp] theorem writeFlags_fault (f : Flags) : (writeFlags s f).fault = s.fault := rfl
@[simp] theorem writeFlags_refused (f : Flags) : (writeFlags s f).refused = s.refused := rfl
@[simp] theorem writeFlags_hooks (f : Flags) : (writeFlags s f).hooks = s.hooks := rfl
@[simp] theorem writeFlags_hookCalls (f : Flags) : (writeFlags s f).hookCalls = s.hookCalls := rfl
@[simp] theorem writeFlags_draws (f : Flags) : (writeFlags s f).draws = s.draws := rfl
@[simp] theorem writeFlags_params (f : Flags) : (writeFlags s f).params = s.params := rfl

/-! ### writePc -/

@[simp] theorem writePc_regs (a : Addr) : (writePc s a).regs = s.regs := rfl
@[simp] theorem writePc_pc (a : Addr) : (writePc s a).pc = a := rfl
@[simp] theorem writePc_sp (a : Addr) : (writePc s a).sp = s.sp := rfl
@[simp] theorem writePc_flags (a : Addr) : (writePc s a).flags = s.flags := rfl
@[simp] theorem writePc_ac (a : Addr) : (writePc s a).ac = s.ac := rfl
@[simp] theorem writePc_mar (a : Addr) : (writePc s a).mar = s.mar := rfl
@[simp] theorem writePc_mdr (a : Addr) : (writePc s a).mdr = s.mdr := rfl
@[simp] theorem writePc_ir (a : Addr) : (writePc s a).ir = s.ir := rfl
@[simp] theorem writePc_upc (a : Addr) : (writePc s a).upc = s.upc := rfl
@[simp] theorem writePc_halted (a : Addr) : (writePc s a).halted = s.halted := rfl
@[simp] theorem writePc_rom (a : Addr) : (writePc s a).rom = s.rom := rfl
@[simp] theorem writePc_ram (a : Addr) : (writePc s a).ram = s.ram := rfl
@[simp] theorem writePc_fault (a : Addr) : (writePc s a).fault = s.fault := rfl
@[simp] theorem writePc_refused (a : Addr) : (writePc s a).refused = s.refused := rfl
@[simp] theorem writePc_hooks (a : Addr) : (writePc s a).hooks = s.hooks := rfl
@[simp] theorem writePc_hookCalls (a : Addr) : (writePc s a).hookCalls = s.hookCalls := rfl
@[simp] theorem writePc_draws (a : Addr) : (writePc s a).draws = s.draws := rfl
@[simp] theorem writePc_params (a : Addr) : (writePc s a).params = s.params := rfl

/-! ### writeSp -/

@[simp] theorem writeSp_regs (a : Addr) : (writeSp s a).regs = s.regs := rfl
@[simp] theorem writeSp_pc (a : Addr) : (writeSp s a).pc = s.pc := rfl
@[simp] theorem writeSp_sp (a : Addr) : (writeSp s a).sp = a := rfl
@[simp] theorem writeSp_flags (a : Addr) : (writeSp s a).flags = s.flags := rfl
@[simp] theorem writeSp_ac (a : Addr) : (writeSp s a).ac = s.ac := rfl
@[simp] theorem writeSp_mar (a : Addr) : (writeSp s a).mar = s.mar := rfl
@[simp] theorem writeSp_mdr (a : Addr) : (writeSp s a).mdr = s.mdr := rfl
@[simp] theorem writeSp_ir (a : Addr) : (writeSp s a).ir = s.ir := rfl
@[simp] theorem writeSp_upc (a : Addr) : (writeSp s a).upc = s.upc := rfl
@[simp] theorem writeSp_halted (a : Addr) : (writeSp s a).halted = s.halted := rfl
@[simp] theorem writeSp_rom (a : Addr) : (writeSp s a).rom = s.rom := rfl
@[simp] theorem writeSp_ram (a : Addr) : (writeSp s a).ram = s.ram := rfl
@[simp] theorem writeSp_fault (a : Addr) : (writeSp s a).fault = s.fault := rfl
@[simp] theorem writeSp_refused (a : Addr) : (writeSp s a).refused = s.refused := rfl
@[simp] theorem writeSp_hooks (a : Addr) : (writeSp s a).hooks = s.hooks := rfl
@[simp] theorem writeSp_hookCalls (a : Addr) : (writeSp s a).hookCalls = s.hookCalls := rfl
@[simp] theorem writeSp_draws (a : Addr) : (writeSp s a).draws = s.draws := rfl
@[simp] theorem writeSp_params (a : Addr) : (writeSp s a).params = s.params := rfl

/-! ### scratchAfterAlu -/

@[simp] theorem scratchAfterAlu_regs (r : Byte) : (scratchAfterAlu s r).regs = s.regs := rfl
@[simp] theorem scratchAfterAlu_pc (r : Byte) : (scratchAfterAlu s r).pc = s.pc := rfl
@[simp] theorem scratchAfterAlu_sp (r : Byte) : (scratchAfterAlu s r).sp = s.sp := rfl
@[simp] theorem scratchAfterAlu_flags (r : Byte) : (scratchAfterAlu s r).flags = s.flags := rfl
@[simp] theorem scratchAfterAlu_ac (r : Byte) : (scratchAfterAlu s r).ac = r := rfl
@[simp] theorem scratchAfterAlu_mar (r : Byte) : (scratchAfterAlu s r).mar = Config.freeMar s.draws := rfl
@[simp] theorem scratchAfterAlu_mdr (r : Byte) : (scratchAfterAlu s r).mdr = Config.freeMdr s.draws := rfl
@[simp] theorem scratchAfterAlu_ir (r : Byte) : (scratchAfterAlu s r).ir = s.ir := rfl
@[simp] theorem scratchAfterAlu_upc (r : Byte) : (scratchAfterAlu s r).upc = s.upc := rfl
@[simp] theorem scratchAfterAlu_halted (r : Byte) : (scratchAfterAlu s r).halted = s.halted := rfl
@[simp] theorem scratchAfterAlu_rom (r : Byte) : (scratchAfterAlu s r).rom = s.rom := rfl
@[simp] theorem scratchAfterAlu_ram (r : Byte) : (scratchAfterAlu s r).ram = s.ram := rfl
@[simp] theorem scratchAfterAlu_fault (r : Byte) : (scratchAfterAlu s r).fault = s.fault := rfl
@[simp] theorem scratchAfterAlu_refused (r : Byte) : (scratchAfterAlu s r).refused = s.refused := rfl
@[simp] theorem scratchAfterAlu_hooks (r : Byte) : (scratchAfterAlu s r).hooks = s.hooks := rfl
@[simp] theorem scratchAfterAlu_hookCalls (r : Byte) : (scratchAfterAlu s r).hookCalls = s.hookCalls := rfl
@[simp] theorem scratchAfterAlu_draws (r : Byte) : (scratchAfterAlu s r).draws = s.draws + 1 := rfl
@[simp] theorem scratchAfterAlu_params (r : Byte) : (scratchAfterAlu s r).params = s.params := rfl

/-! ### scratchAfterMove -/

@[simp] theorem scratchAfterMove_regs (a : Addr) (v : Byte) : (scratchAfterMove s a v).regs = s.regs := rfl
@[simp] theorem scratchAfterMove_pc (a : Addr) (v : Byte) : (scratchAfterMove s a v).pc = s.pc := rfl
@[simp] theorem scratchAfterMove_sp (a : Addr) (v : Byte) : (scratchAfterMove s a v).sp = s.sp := rfl
@[simp] theorem scratchAfterMove_flags (a : Addr) (v : Byte) : (scratchAfterMove s a v).flags = s.flags := rfl
@[simp] theorem scratchAfterMove_ac (a : Addr) (v : Byte) : (scratchAfterMove s a v).ac = Config.freeAc s.draws := rfl
@[simp] theorem scratchAfterMove_mar (a : Addr) (v : Byte) : (scratchAfterMove s a v).mar = a := rfl
@[simp] theorem scratchAfterMove_mdr (a : Addr) (v : Byte) : (scratchAfterMove s a v).mdr = v := rfl
@[simp] theorem scratchAfterMove_ir (a : Addr) (v : Byte) : (scratchAfterMove s a v).ir = s.ir := rfl
@[simp] theorem scratchAfterMove_upc (a : Addr) (v : Byte) : (scratchAfterMove s a v).upc = s.upc := rfl
@[simp] theorem scratchAfterMove_halted (a : Addr) (v : Byte) : (scratchAfterMove s a v).halted = s.halted := rfl
@[simp] theorem scratchAfterMove_rom (a : Addr) (v : Byte) : (scratchAfterMove s a v).rom = s.rom := rfl
@[simp] theorem scratchAfterMove_ram (a : Addr) (v : Byte) : (scratchAfterMove s a v).ram = s.ram := rfl
@[simp] theorem scratchAfterMove_fault (a : Addr) (v : Byte) : (scratchAfterMove s a v).fault = s.fault := rfl
@[simp] theorem scratchAfterMove_refused (a : Addr) (v : Byte) : (scratchAfterMove s a v).refused = s.refused := rfl
@[simp] theorem scratchAfterMove_hooks (a : Addr) (v : Byte) : (scratchAfterMove s a v).hooks = s.hooks := rfl
@[simp] theorem scratchAfterMove_hookCalls (a : Addr) (v : Byte) : (scratchAfterMove s a v).hookCalls = s.hookCalls := rfl
@[simp] theorem scratchAfterMove_draws (a : Addr) (v : Byte) : (scratchAfterMove s a v).draws = s.draws + 1 := rfl
@[simp] theorem scratchAfterMove_params (a : Addr) (v : Byte) : (scratchAfterMove s a v).params = s.params := rfl

/-! ### scratchDrawn -/

@[simp] theorem scratchDrawn_regs : (scratchDrawn s).regs = s.regs := rfl
@[simp] theorem scratchDrawn_pc : (scratchDrawn s).pc = s.pc := rfl
@[simp] theorem scratchDrawn_sp : (scratchDrawn s).sp = s.sp := rfl
@[simp] theorem scratchDrawn_flags : (scratchDrawn s).flags = s.flags := rfl
@[simp] theorem scratchDrawn_ac : (scratchDrawn s).ac = Config.freeAc s.draws := rfl
@[simp] theorem scratchDrawn_mar : (scratchDrawn s).mar = Config.freeMar s.draws := rfl
@[simp] theorem scratchDrawn_mdr : (scratchDrawn s).mdr = Config.freeMdr s.draws := rfl
@[simp] theorem scratchDrawn_ir : (scratchDrawn s).ir = s.ir := rfl
@[simp] theorem scratchDrawn_upc : (scratchDrawn s).upc = s.upc := rfl
@[simp] theorem scratchDrawn_halted : (scratchDrawn s).halted = s.halted := rfl
@[simp] theorem scratchDrawn_rom : (scratchDrawn s).rom = s.rom := rfl
@[simp] theorem scratchDrawn_ram : (scratchDrawn s).ram = s.ram := rfl
@[simp] theorem scratchDrawn_fault : (scratchDrawn s).fault = s.fault := rfl
@[simp] theorem scratchDrawn_refused : (scratchDrawn s).refused = s.refused := rfl
@[simp] theorem scratchDrawn_hooks : (scratchDrawn s).hooks = s.hooks := rfl
@[simp] theorem scratchDrawn_hookCalls : (scratchDrawn s).hookCalls = s.hookCalls := rfl
@[simp] theorem scratchDrawn_draws : (scratchDrawn s).draws = s.draws + 1 := rfl
@[simp] theorem scratchDrawn_params : (scratchDrawn s).params = s.params := rfl

/-! ### ramWrite -/

@[simp] theorem ramWrite_regs (a : Addr) (v : Byte) : (ramWrite s a v).regs = s.regs := rfl
@[simp] theorem ramWrite_pc (a : Addr) (v : Byte) : (ramWrite s a v).pc = s.pc := rfl
@[simp] theorem ramWrite_sp (a : Addr) (v : Byte) : (ramWrite s a v).sp = s.sp := rfl
@[simp] theorem ramWrite_flags (a : Addr) (v : Byte) : (ramWrite s a v).flags = s.flags := rfl
@[simp] theorem ramWrite_ac (a : Addr) (v : Byte) : (ramWrite s a v).ac = s.ac := rfl
@[simp] theorem ramWrite_mar (a : Addr) (v : Byte) : (ramWrite s a v).mar = s.mar := rfl
@[simp] theorem ramWrite_mdr (a : Addr) (v : Byte) : (ramWrite s a v).mdr = s.mdr := rfl
@[simp] theorem ramWrite_ir (a : Addr) (v : Byte) : (ramWrite s a v).ir = s.ir := rfl
@[simp] theorem ramWrite_upc (a : Addr) (v : Byte) : (ramWrite s a v).upc = s.upc := rfl
@[simp] theorem ramWrite_halted (a : Addr) (v : Byte) : (ramWrite s a v).halted = s.halted := rfl
@[simp] theorem ramWrite_rom (a : Addr) (v : Byte) : (ramWrite s a v).rom = s.rom := rfl
@[simp] theorem ramWrite_ram (a : Addr) (v : Byte) : (ramWrite s a v).ram = Memory.write s.ram a.toNat v := rfl
@[simp] theorem ramWrite_fault (a : Addr) (v : Byte) : (ramWrite s a v).fault = s.fault := rfl
@[simp] theorem ramWrite_refused (a : Addr) (v : Byte) : (ramWrite s a v).refused = s.refused := rfl
@[simp] theorem ramWrite_hooks (a : Addr) (v : Byte) : (ramWrite s a v).hooks = s.hooks := rfl
@[simp] theorem ramWrite_hookCalls (a : Addr) (v : Byte) : (ramWrite s a v).hookCalls = s.hookCalls := rfl
@[simp] theorem ramWrite_draws (a : Addr) (v : Byte) : (ramWrite s a v).draws = s.draws := rfl
@[simp] theorem ramWrite_params (a : Addr) (v : Byte) : (ramWrite s a v).params = s.params := rfl

/-! ### afterHook -/

@[simp] theorem afterHook_regs (h : Hooks) (call : HookCall) : (afterHook s h call).regs = s.regs := rfl
@[simp] theorem afterHook_pc (h : Hooks) (call : HookCall) : (afterHook s h call).pc = s.pc := rfl
@[simp] theorem afterHook_sp (h : Hooks) (call : HookCall) : (afterHook s h call).sp = s.sp := rfl
@[simp] theorem afterHook_flags (h : Hooks) (call : HookCall) : (afterHook s h call).flags = s.flags := rfl
@[simp] theorem afterHook_ac (h : Hooks) (call : HookCall) : (afterHook s h call).ac = s.ac := rfl
@[simp] theorem afterHook_mar (h : Hooks) (call : HookCall) : (afterHook s h call).mar = s.mar := rfl
@[simp] theorem afterHook_mdr (h : Hooks) (call : HookCall) : (afterHook s h call).mdr = s.mdr := rfl
@[simp] theorem afterHook_ir (h : Hooks) (call : HookCall) : (afterHook s h call).ir = s.ir := rfl
@[simp] theorem afterHook_upc (h : Hooks) (call : HookCall) : (afterHook s h call).upc = s.upc := rfl
@[simp] theorem afterHook_halted (h : Hooks) (call : HookCall) : (afterHook s h call).halted = s.halted := rfl
@[simp] theorem afterHook_rom (h : Hooks) (call : HookCall) : (afterHook s h call).rom = s.rom := rfl
@[simp] theorem afterHook_ram (h : Hooks) (call : HookCall) : (afterHook s h call).ram = s.ram := rfl
@[simp] theorem afterHook_fault (h : Hooks) (call : HookCall) : (afterHook s h call).fault = s.fault := rfl
@[simp] theorem afterHook_refused (h : Hooks) (call : HookCall) : (afterHook s h call).refused = s.refused := rfl
@[simp] theorem afterHook_hooks (h : Hooks) (call : HookCall) : (afterHook s h call).hooks = h := rfl
@[simp] theorem afterHook_hookCalls (h : Hooks) (call : HookCall) : (afterHook s h call).hookCalls = s.hookCalls ++ [call] := rfl
@[simp] theorem afterHook_draws (h : Hooks) (call : HookCall) : (afterHook s h call).draws = s.draws := rfl
@[simp] theorem afterHook_params (h : Hooks) (call : HookCall) : (afterHook s h call).params = s.params := rfl

/-! ### boundaryBefore -/

@[simp] theorem boundaryBefore_regs : (boundaryBefore s).regs = s.regs := rfl
@[simp] theorem boundaryBefore_pc : (boundaryBefore s).pc = s.pc := rfl
@[simp] theorem boundaryBefore_sp : (boundaryBefore s).sp = s.sp := rfl
@[simp] theorem boundaryBefore_flags : (boundaryBefore s).flags = s.flags := rfl
@[simp] theorem boundaryBefore_ac : (boundaryBefore s).ac = s.ac := rfl
@[simp] theorem boundaryBefore_mar : (boundaryBefore s).mar = s.mar := rfl
@[simp] theorem boundaryBefore_mdr : (boundaryBefore s).mdr = s.mdr := rfl
@[simp] theorem boundaryBefore_ir : (boundaryBefore s).ir = s.ir := rfl
@[simp] theorem boundaryBefore_upc : (boundaryBefore s).upc = 0 := rfl
@[simp] theorem boundaryBefore_halted : (boundaryBefore s).halted = s.halted := rfl
@[simp] theorem boundaryBefore_rom : (boundaryBefore s).rom = s.rom := rfl
@[simp] theorem boundaryBefore_ram : (boundaryBefore s).ram = s.ram := rfl
@[simp] theorem boundaryBefore_fault : (boundaryBefore s).fault = s.fault := rfl
@[simp] theorem boundaryBefore_refused : (boundaryBefore s).refused = s.refused := rfl
@[simp] theorem boundaryBefore_hooks : (boundaryBefore s).hooks = s.hooks := rfl
@[simp] theorem boundaryBefore_hookCalls : (boundaryBefore s).hookCalls = s.hookCalls := rfl
@[simp] theorem boundaryBefore_draws : (boundaryBefore s).draws = s.draws := rfl
@[simp] theorem boundaryBefore_params : (boundaryBefore s).params = s.params := rfl

/-- At a boundary nothing is in flight. -/
theorem boundaryBefore_of_upc {s : State} (h : s.upc = 0) : boundaryBefore s = s := by
  cases s
  cases h
  rfl

/-! ### markFault -/

@[simp] theorem markFault_regs (f : Fault) : (markFault s f).regs = s.regs := rfl
@[simp] theorem markFault_pc (f : Fault) : (markFault s f).pc = s.pc := rfl
@[simp] theorem markFault_sp (f : Fault) : (markFault s f).sp = s.sp := rfl
@[simp] theorem markFault_flags (f : Fault) : (markFault s f).flags = s.flags := rfl
@[simp] theorem markFault_ac (f : Fault) : (markFault s f).ac = s.ac := rfl
@[simp] theorem markFault_mar (f : Fault) : (markFault s f).mar = s.mar := rfl
@[simp] theorem markFault_mdr (f : Fault) : (markFault s f).mdr = s.mdr := rfl
@[simp] theorem markFault_ir (f : Fault) : (markFault s f).ir = s.ir := rfl
@[simp] theorem markFault_upc (f : Fault) : (markFault s f).upc = 0 := rfl
@[simp] theorem markFault_halted (f : Fault) : (markFault s f).halted = s.halted := rfl
@[simp] theorem markFault_rom (f : Fault) : (markFault s f).rom = s.rom := rfl
@[simp] theorem markFault_ram (f : Fault) : (markFault s f).ram = s.ram := rfl
@[simp] theorem markFault_fault (f : Fault) : (markFault s f).fault = some f := rfl
@[simp] theorem markFault_refused (f : Fault) : (markFault s f).refused = s.refused := rfl
@[simp] theorem markFault_hooks (f : Fault) : (markFault s f).hooks = s.hooks := rfl
@[simp] theorem markFault_hookCalls (f : Fault) : (markFault s f).hookCalls = s.hookCalls := rfl
@[simp] theorem markFault_draws (f : Fault) : (markFault s f).draws = s.draws := rfl
@[simp] theorem markFault_params (f : Fault) : (markFault s f).params = s.params := rfl

/-! ### markRefused -/

@[simp] theorem markRefused_regs (r : Refusal) : (markRefused s r).regs = s.regs := rfl
@[simp] theorem markRefused_pc (r : Refusal) : (markRefused s r).pc = s.pc := rfl
@[simp] theorem markRefused_sp (r : Refusal) : (markRefused s r).sp = s.sp := rfl
@[simp] theorem markRefused_flags (r : Refusal) : (markRefused s r).flags = s.flags := rfl
@[simp] theorem markRefused_ac (r : Refusal) : (markRefused s r).ac = s.ac := rfl
@[simp] theorem markRefused_mar (r : Refusal) : (markRefused s r).mar = s.mar := rfl
@[simp] theorem markRefused_mdr (r : Refusal) : (markRefused s r).mdr = s.mdr := rfl
@[simp] theorem markRefused_ir (r : Refusal) : (markRefused s r).ir = s.ir := rfl
@[simp] theorem markRefused_upc (r : Refusal) : (markRefused s r).upc = s.upc := rfl
@[simp] theorem markRefused_halted (r : Refusal) : (markRefused s r).halted = s.halted := rfl
@[simp] theorem markRefused_rom (r : Refusal) : (markRefused s r).rom = s.rom := rfl
@[simp] theorem markRefused_ram (r : Refusal) : (markRefused s r).ram = s.ram := rfl
@[simp] theorem markRefused_fault (r : Refusal) : (markRefused s r).fault = s.fault := rfl
@[simp] theorem markRefused_refused (r : Refusal) : (markRefused s r).refused = some r := rfl
@[simp] theorem markRefused_hooks (r : Refusal) : (markRefused s r).hooks = s.hooks := rfl
@[simp] theorem markRefused_hookCalls (r : Refusal) : (markRefused s r).hookCalls = s.hookCalls := rfl
@[simp] theorem markRefused_draws (r : Refusal) : (markRefused s r).draws = s.draws := rfl
@[simp] theorem markRefused_params (r : Refusal) : (markRefused s r).params = s.params := rfl

/-! ### fetch -/

@[simp] theorem fetch_regs : (fetch s).regs = s.regs := rfl
@[simp] theorem fetch_pc : (fetch s).pc = s.pc + 1 := rfl
@[simp] theorem fetch_sp : (fetch s).sp = s.sp := rfl
@[simp] theorem fetch_flags : (fetch s).flags = s.flags := rfl
@[simp] theorem fetch_ac : (fetch s).ac = s.ac := rfl
@[simp] theorem fetch_mar : (fetch s).mar = s.mar := rfl
@[simp] theorem fetch_mdr : (fetch s).mdr = s.mdr := rfl
@[simp] theorem fetch_ir : (fetch s).ir = romRead s s.pc := rfl
@[simp] theorem fetch_upc : (fetch s).upc = 0 := rfl
@[simp] theorem fetch_halted : (fetch s).halted = s.halted := rfl
@[simp] theorem fetch_rom : (fetch s).rom = s.rom := rfl
@[simp] theorem fetch_ram : (fetch s).ram = s.ram := rfl
@[simp] theorem fetch_fault : (fetch s).fault = s.fault := rfl
@[simp] theorem fetch_refused : (fetch s).refused = s.refused := rfl
@[simp] theorem fetch_hooks : (fetch s).hooks = s.hooks := rfl
@[simp] theorem fetch_hookCalls : (fetch s).hookCalls = s.hookCalls := rfl
@[simp] theorem fetch_draws : (fetch s).draws = s.draws := rfl
@[simp] theorem fetch_params : (fetch s).params = s.params := rfl

/-! ### microfetch -/

@[simp] theorem microfetch_regs : (microfetch s).regs = s.regs := rfl
@[simp] theorem microfetch_pc : (microfetch s).pc = s.pc := rfl
@[simp] theorem microfetch_sp : (microfetch s).sp = s.sp := rfl
@[simp] theorem microfetch_flags : (microfetch s).flags = s.flags := rfl
@[simp] theorem microfetch_ac : (microfetch s).ac = s.ac := rfl
@[simp] theorem microfetch_mar : (microfetch s).mar = s.mar := rfl
@[simp] theorem microfetch_mdr : (microfetch s).mdr = s.mdr := rfl
@[simp] theorem microfetch_ir : (microfetch s).ir = s.ir := rfl
@[simp] theorem microfetch_upc : (microfetch s).upc = s.upc + 1 := rfl
@[simp] theorem microfetch_halted : (microfetch s).halted = s.halted := rfl
@[simp] theorem microfetch_rom : (microfetch s).rom = s.rom := rfl
@[simp] theorem microfetch_ram : (microfetch s).ram = s.ram := rfl
@[simp] theorem microfetch_fault : (microfetch s).fault = s.fault := rfl
@[simp] theorem microfetch_refused : (microfetch s).refused = s.refused := rfl
@[simp] theorem microfetch_hooks : (microfetch s).hooks = s.hooks := rfl
@[simp] theorem microfetch_hookCalls : (microfetch s).hookCalls = s.hookCalls := rfl
@[simp] theorem microfetch_draws : (microfetch s).draws = s.draws := rfl
@[simp] theorem microfetch_params : (microfetch s).params = s.params := rfl

/-! ### placeFetched -/

@[simp] theorem placeFetched_regs (w : Word) : (placeFetched s w).regs = s.regs := rfl
@[simp] theorem placeFetched_pc (w : Word) : (placeFetched s w).pc = s.pc := rfl
@[simp] theorem placeFetched_sp (w : Word) : (placeFetched s w).sp = s.sp := rfl
@[simp] theorem placeFetched_flags (w : Word) : (placeFetched s w).flags = s.flags := rfl
@[simp] theorem placeFetched_ac (w : Word) : (placeFetched s w).ac = s.ac := rfl
@[simp] theorem placeFetched_mar (w : Word) : (placeFetched s w).mar = s.mar := rfl
@[simp] theorem placeFetched_mdr (w : Word) : (placeFetched s w).mdr = s.mdr := rfl
@[simp] theorem placeFetched_ir (w : Word) : (placeFetched s w).ir = w := rfl
@[simp] theorem placeFetched_upc (w : Word) : (placeFetched s w).upc = 0 := rfl
@[simp] theorem placeFetched_halted (w : Word) : (placeFetched s w).halted = s.halted := rfl
@[simp] theorem placeFetched_rom (w : Word) : (placeFetched s w).rom = Memory.write s.rom (s.pc - 1).toNat w := rfl
@[simp] theorem placeFetched_ram (w : Word) : (placeFetched s w).ram = s.ram := rfl
@[simp] theorem placeFetched_fault (w : Word) : (placeFetched s w).fault = s.fault := rfl
@[simp] theorem placeFetched_refused (w : Word) : (placeFetched s w).refused = s.refused := rfl
@[simp] theorem placeFetched_hooks (w : Word) : (placeFetched s w).hooks = s.hooks := rfl
@[simp] theorem placeFetched_hookCalls (w : Word) : (placeFetched s w).hookCalls = s.hookCalls := rfl
@[simp] theorem placeFetched_draws (w : Word) : (placeFetched s w).draws = s.draws := rfl
@[simp] theorem placeFetched_params (w : Word) : (placeFetched s w).params = s.params := rfl

/-! ### storeUnlessHandled -/

@[simp] theorem storeUnlessHandled_regs (a : Addr) (v : Byte) (handled : Bool) :
    (storeUnlessHandled s a v handled).regs = s.regs := by
  cases handled <;> rfl
@[simp] theorem storeUnlessHandled_pc (a : Addr) (v : Byte) (handled : Bool) :
    (storeUnlessHandled s a v handled).pc = s.pc := by
  cases handled <;> rfl
@[simp] theorem storeUnlessHandled_sp (a : Addr) (v : Byte) (handled : Bool) :
    (storeUnlessHandled s a v handled).sp = s.sp := by
  cases handled <;> rfl
@[simp] theorem storeUnlessHandled_flags (a : Addr) (v : Byte) (handled : Bool) :
    (storeUnlessHandled s a v handled).flags = s.flags := by
  cases handled <;> rfl
@[simp] theorem storeUnlessHandled_ac (a : Addr) (v : Byte) (handled : Bool) :
    (storeUnlessHandled s a v handled).ac = s.ac := by
  cases handled <;> rfl
@[simp] theorem storeUnlessHandled_mar (a : Addr) (v : Byte) (handled : Bool) :
    (storeUnlessHandled s a v handled).mar = s.mar := by
  cases handled <;> rfl
@[simp] theorem storeUnlessHandled_mdr (a : Addr) (v : Byte) (handled : Bool) :
    (storeUnlessHandled s a v handled).mdr = s.mdr := by
  cases handled <;> rfl
@[simp] theorem storeUnlessHandled_ir (a : Addr) (v : Byte) (handled : Bool) :
    (storeUnlessHandled s a v handled).ir = s.ir := by
  cases handled <;> rfl
@[simp] theorem storeUnlessHandled_upc (a : Addr) (v : Byte) (handled : Bool) :
    (storeUnlessHandled s a v handled).upc = s.upc := by
  cases handled <;> rfl
@[simp] theorem storeUnlessHandled_halted (a : Addr) (v : Byte) (handled : Bool) :
    (storeUnlessHandled s a v handled).halted = s.halted := by
  cases handled <;> rfl
@[simp] theorem storeUnlessHandled_rom (a : Addr) (v : Byte) (handled : Bool) :
    (storeUnlessHandled s a v handled).rom = s.rom := by
  cases handled <;> rfl
@[simp] theorem storeUnlessHandled_ram (a : Addr) (v : Byte) (handled : Bool) :
    (storeUnlessHandled s a v handled).ram = if handled then s.ram else Memory.write s.ram a.toNat v := by
  cases handled <;> rfl
@[simp] theorem storeUnlessHandled_fault (a : Addr) (v : Byte) (handled : Bool) :
    (storeUnlessHandled s a v handled).fault = s.fault := by
  cases handled <;> rfl
@[simp] theorem storeUnlessHandled_refused (a : Addr) (v : Byte) (handled : Bool) :
    (storeUnlessHandled s a v handled).refused = s.refused := by
  cases handled <;> rfl
@[simp] theorem storeUnlessHandled_hooks (a : Addr) (v : Byte) (handled : Bool) :
    (storeUnlessHandled s a v handled).hooks = s.hooks := by
  cases handled <;> rfl
@[simp] theorem storeUnlessHandled_hookCalls (a : Addr) (v : Byte) (handled : Bool) :
    (storeUnlessHandled s a v handled).hookCalls = s.hookCalls := by
  cases handled <;> rfl
@[simp] theorem storeUnlessHandled_draws (a : Addr) (v : Byte) (handled : Bool) :
    (storeUnlessHandled s a v handled).draws = s.draws := by
  cases handled <;> rfl
@[simp] theorem storeUnlessHandled_params (a : Addr) (v : Byte) (handled : Bool) :
    (storeUnlessHandled s a v handled).params = s.params := by
  cases handled <;> rfl

/-! ### Registers -/

@[simp] theorem readReg_writeReg_same (r : RegIdx) (v : Byte) : readReg (writeReg s r v) r = v := by
  simp [readReg]

theorem readReg_writeReg_ne {r q : RegIdx} (v : Byte) (h : q ≠ r) : readReg (writeReg s r v) q = readReg s q := by
  have h' : r.toNat ≠ q.toNat := fun e => h (BitVec.eq_of_toNat_eq e.symm)
  simp [readReg, Vector.getElem_set_ne _ _ h']

/-- A register read depends on the register file alone. -/
theorem readReg_congr {s t : State} (h : t.regs = s.regs) (r : RegIdx) : readReg t r = readReg s r := by
  simp [readReg, h]

/-- A ROM read depends on ROM alone. -/
theorem romRead_congr {s t : State} (h : t.rom = s.rom) (a : Addr) : romRead t a = romRead s a := by
  simp [romRead, h]

/-- A RAM read depends on RAM alone. -/
theorem ramRead_congr {s t : State} (h : t.ram = s.ram) (a : Addr) : ramRead t a = ramRead s a := by
  simp [ramRead, h]

end Sys2Proof.Machine
end

