-- ==== Sys2Proof/Laws/Memory.lean ====
section
/-! SUPPORT. The laws of the two memories: a read after a write, the other cells, and the canonical form, which
every memory operation keeps and which makes equal memories equal data. -/

namespace Sys2Proof.Machine.Memory

variable {w : Nat}

@[simp] theorem read_nil (a : Nat) : Memory.read ([] : List (Nat × BitVec w)) a = 0#w := rfl

theorem wfFrom_cons {lo a : Nat} {v : BitVec w} {m : List (Nat × BitVec w)} :
    Memory.wfFrom lo ((a, v) :: m) = true ↔ lo ≤ a ∧ a < 256 ∧ v ≠ 0#w ∧ Memory.wfFrom (a + 1) m = true := by
  simp [Memory.wfFrom, and_assoc]

theorem wfFrom_mono {lo lo' : Nat} (h : lo' ≤ lo) :
    ∀ {m : List (Nat × BitVec w)}, Memory.wfFrom lo m = true → Memory.wfFrom lo' m = true
  | [], _ => rfl
  | (_, _) :: _, hm => by
    rw [wfFrom_cons] at hm ⊢
    exact ⟨Nat.le_trans h hm.1, hm.2⟩

/-- Below its first address a memory reads 0. -/
theorem read_below {a : Nat} :
    ∀ {m : List (Nat × BitVec w)} {lo : Nat}, Memory.wfFrom lo m = true → a < lo → Memory.read m a = 0#w
  | [], _, _, _ => rfl
  | (b, v) :: m, lo, hm, ha => by
    rw [wfFrom_cons] at hm
    have hab : a ≠ b := by omega
    simp only [Memory.read, if_neg hab]
    exact read_below hm.2.2.2 (by omega)

/-- A read of the cell written gives the value written. -/
theorem read_write_same {a : Nat} {v : BitVec w} :
    ∀ {m : List (Nat × BitVec w)} {lo : Nat}, Memory.wfFrom lo m = true →
      Memory.read (Memory.write m a v) a = v
  | [], _, _ => by
    by_cases hv : v = 0#w <;> simp [Memory.write, Memory.read, hv]
  | (b, u) :: m, lo, hm => by
    rw [wfFrom_cons] at hm
    by_cases hlt : a < b
    · have hab : a ≠ b := by omega
      by_cases hv : v = 0#w
      · have := read_below (a := a) hm.2.2.2 (by omega)
        simp [Memory.write, Memory.read, hlt, hv, hab, this]
      · simp [Memory.write, Memory.read, hlt, hv]
    · by_cases hab : a = b
      · subst hab
        by_cases hv : v = 0#w
        · have := read_below (a := a) hm.2.2.2 (by omega)
          simp [Memory.write, hv, this]
        · simp [Memory.write, Memory.read, hv]
      · simp only [Memory.write, if_neg hlt, if_neg hab, Memory.read]
        exact read_write_same hm.2.2.2

/-- A write leaves every other cell alone, in canonical form or not. -/
theorem read_write_ne {a b : Nat} {v : BitVec w} (h : b ≠ a) :
    ∀ m : List (Nat × BitVec w), Memory.read (Memory.write m a v) b = Memory.read m b
  | [] => by
    by_cases hv : v = 0#w <;> simp [Memory.write, Memory.read, hv, h]
  | (c, u) :: m => by
    by_cases hlt : a < c
    · by_cases hv : v = 0#w <;> simp [Memory.write, Memory.read, hlt, hv, h]
    · by_cases hac : a = c
      · subst hac
        by_cases hv : v = 0#w <;> simp [Memory.write, Memory.read, hv, h]
      · simp only [Memory.write, if_neg hlt, if_neg hac, Memory.read, read_write_ne h m]

theorem wfFrom_write {a : Nat} {v : BitVec w} (ha : a < 256) :
    ∀ {m : List (Nat × BitVec w)} {lo : Nat}, Memory.wfFrom lo m = true → lo ≤ a →
      Memory.wfFrom lo (Memory.write m a v) = true
  | [], lo, _, hlo => by
    by_cases hv : v = 0#w <;> simp [Memory.write, Memory.wfFrom, hv, hlo, ha]
  | (b, u) :: m, lo, hm, hlo => by
    have hm' := wfFrom_cons.mp hm
    by_cases hlt : a < b
    · by_cases hv : v = 0#w
      · simpa [Memory.write, hlt, hv] using hm
      · simp only [Memory.write, if_pos hlt, if_neg hv]
        exact wfFrom_cons.mpr ⟨hlo, ha, hv, wfFrom_cons.mpr ⟨hlt, hm'.2⟩⟩
    · by_cases hab : a = b
      · subst hab
        by_cases hv : v = 0#w
        · simpa [Memory.write, hv] using wfFrom_mono (Nat.le_succ_of_le hlo) hm'.2.2.2
        · simpa [Memory.write, hv] using wfFrom_cons.mpr ⟨hlo, ha, hv, hm'.2.2.2⟩
      · simp only [Memory.write, if_neg hlt, if_neg hab]
        exact wfFrom_cons.mpr ⟨hm'.1, hm'.2.1, hm'.2.2.1, wfFrom_write ha hm'.2.2.2 (by omega)⟩

/-- A write keeps the canonical form. -/
theorem wf_write {m : List (Nat × BitVec w)} (hm : Memory.wf m = true) {a : Nat} (ha : a < 256) (v : BitVec w) :
    Memory.wf (Memory.write m a v) = true :=
  wfFrom_write ha hm (Nat.zero_le a)

@[simp] theorem wf_nil : Memory.wf ([] : List (Nat × BitVec w)) = true := rfl

/-- Writing a whole program keeps the canonical form. -/
theorem wf_writeAll :
    ∀ (vs : List (BitVec w)) {m : List (Nat × BitVec w)} {a : Nat}, Memory.wf m = true → a + vs.length ≤ 256 →
      Memory.wf (Memory.writeAll m a vs) = true
  | [], _, _, hm, _ => hm
  | v :: vs, m, a, hm, ha => by
    simp only [List.length_cons] at ha
    exact wf_writeAll vs (wf_write hm (by omega) v) (by omega)

/-- Cells outside the words written keep their values. -/
theorem read_writeAll_outside :
    ∀ (vs : List (BitVec w)) (m : List (Nat × BitVec w)) (a b : Nat), (b < a ∨ a + vs.length ≤ b) →
      Memory.read (Memory.writeAll m a vs) b = Memory.read m b
  | [], _, _, _, _ => rfl
  | v :: vs, m, a, b, h => by
    simp only [List.length_cons] at h
    simp only [Memory.writeAll]
    rw [read_writeAll_outside vs _ (a + 1) b (by omega), read_write_ne (by omega)]

/-- Word `k` written from `a` on is in cell `a + k`. -/
theorem read_writeAll_inside :
    ∀ (vs : List (BitVec w)) {m : List (Nat × BitVec w)} {a : Nat}, Memory.wf m = true → a + vs.length ≤ 256 →
      ∀ (k : Nat) (hk : k < vs.length), Memory.read (Memory.writeAll m a vs) (a + k) = vs[k]
  | v :: vs, m, a, hm, ha, 0, _ => by
    simp only [List.length_cons] at ha
    simp only [Memory.writeAll, Nat.add_zero, List.getElem_cons_zero]
    rw [read_writeAll_outside vs _ (a + 1) a (by omega), read_write_same hm]
  | v :: vs, m, a, hm, ha, k + 1, hk => by
    simp only [List.length_cons] at ha hk
    have := read_writeAll_inside vs (a := a + 1) (wf_write hm (by omega : a < 256) v) (by omega) k (by omega)
    simpa [Memory.writeAll, Nat.add_assoc, Nat.add_comm 1 k] using this

/-- Two memories in canonical form with the same cells are the same list. -/
theorem ext_of_read :
    ∀ {m m' : List (Nat × BitVec w)} {lo : Nat}, Memory.wfFrom lo m = true → Memory.wfFrom lo m' = true →
      (∀ a, Memory.read m a = Memory.read m' a) → m = m'
  | [], [], _, _, _, _ => rfl
  | [], (b, u) :: m', lo, _, hm', h => by
    have := h b
    simp only [Memory.read, if_true] at this
    exact absurd this.symm (wfFrom_cons.mp hm').2.2.1
  | (b, u) :: m, [], lo, hm, _, h => by
    have := h b
    simp only [Memory.read, if_true] at this
    exact absurd this (wfFrom_cons.mp hm).2.2.1
  | (b, u) :: m, (c, v) :: m', lo, hm, hm', h => by
    obtain ⟨_, _, hu, hm1⟩ := wfFrom_cons.mp hm
    obtain ⟨_, _, hv, hm1'⟩ := wfFrom_cons.mp hm'
    have hbc : b = c := by
      rcases Nat.lt_trichotomy b c with hlt | heq | hgt
      · have hb := h b
        have e := read_below hm1' (by omega : b < c + 1)
        simp only [Memory.read, if_true, Nat.ne_of_lt hlt, if_false, e] at hb
        exact absurd hb hu
      · exact heq
      · have hc := h c
        have e := read_below hm1 (by omega : c < b + 1)
        simp only [Memory.read, if_true, Nat.ne_of_lt hgt, if_false, e] at hc
        exact absurd hc.symm hv
    subst hbc
    have huv : u = v := by simpa [Memory.read] using h b
    subst huv
    have : m = m' := ext_of_read hm1 hm1' fun a => by
      by_cases hab : a = b
      · subst hab
        rw [read_below hm1 (Nat.lt_succ_self a), read_below hm1' (Nat.lt_succ_self a)]
      · simpa [Memory.read, hab] using h a
    rw [this]

end Sys2Proof.Machine.Memory
end

