-- ==== Sys2Proof/Laws/Ops.lean ====
section
/-! SUPPORT. What each shared operation can do, said once: the format-A check, the data-memory port, stores, the
ends of an instruction, and the guards of the stepping operations. -/

namespace Sys2Proof.Machine

open Host (Outcome)
open Sys2Proof.Safety

variable {s t : State}

/-! ### The format-A check -/

theorem regOperand_of_le {b : Byte} (h : b.toNat ≤ 7) : regOperand b = some (b.setWidth 3) := by
  simp [regOperand, isRegField, h]

theorem regOperand_of_gt {b : Byte} (h : 7 < b.toNat) : regOperand b = none := by
  simp [regOperand, isRegField, h]

theorem withRegOperand_of_le {b : Byte} (h : b.toNat ≤ 7) (k : RegIdx → Outcome State Fault Refusal) :
    withRegOperand s b k = k (b.setWidth 3) := by
  simp [withRegOperand, regOperand_of_le h]

theorem withRegOperand_of_gt {b : Byte} (h : 7 < b.toNat) (k : RegIdx → Outcome State Fault Refusal) :
    withRegOperand s b k = .fault (.registerIndexOutOfRange s.pc s.ir) := by
  simp [withRegOperand, regOperand_of_gt h, raiseRegisterIndex]

/-- A format-A meaning that answers a next state named a register that exists. -/
theorem withRegOperand_next {b : Byte} {k : RegIdx → Outcome State Fault Refusal}
    (h : withRegOperand s b k = .next t) : ∃ r, regOperand b = some r ∧ k r = .next t := by
  unfold withRegOperand at h
  split at h
  · cases h
  · next r hr => exact ⟨r, hr, h⟩

/-! ### The data-memory port -/

theorem withMemRead_of_ask {a : Addr} {r : ReadAnswer} {h : Hooks} (e : s.hooks.askRead = some (r, h))
    (k : Byte → State → State) :
    withMemRead s a k = .next (k (readValue s a r) (afterHook s h (.read a))) := by
  simp [withMemRead, memRead, e]

theorem withMemRead_of_hung {a : Addr} (e : s.hooks.askRead = none) (k : Byte → State → State) :
    withMemRead s a k = .fault .hookNeverReturns := by
  simp [withMemRead, memRead, e]

theorem withMemWrite_of_ask {a : Addr} {v : Byte} {handled : Bool} {h : Hooks}
    (e : s.hooks.askWrite = some (handled, h)) (k : State → State) :
    withMemWrite s a v k = .next (k (storeUnlessHandled (afterHook s h (.write a v)) a v handled)) := by
  simp [withMemWrite, memWrite, e]

theorem withMemWrite_of_hung {a : Addr} {v : Byte} (e : s.hooks.askWrite = none) (k : State → State) :
    withMemWrite s a v k = .fault .hookNeverReturns := by
  simp [withMemWrite, memWrite, e]

/-- A meaning that read through the port and answers a next state got an answer from the hook. -/
theorem withMemRead_next {a : Addr} {k : Byte → State → State} (h : withMemRead s a k = .next t) :
    ∃ r h', s.hooks.askRead = some (r, h') ∧ t = k (readValue s a r) (afterHook s h' (.read a)) := by
  cases e : s.hooks.askRead with
  | none => rw [withMemRead_of_hung e] at h; cases h
  | some rh =>
    rw [withMemRead_of_ask (r := rh.1) (h := rh.2) e] at h
    exact ⟨rh.1, rh.2, rfl, by cases h; rfl⟩

/-- A meaning that wrote through the port and answers a next state got an answer from the hook. -/
theorem withMemWrite_next {a : Addr} {v : Byte} {k : State → State} (h : withMemWrite s a v k = .next t) :
    ∃ handled h', s.hooks.askWrite = some (handled, h') ∧
      t = k (storeUnlessHandled (afterHook s h' (.write a v)) a v handled) := by
  cases e : s.hooks.askWrite with
  | none => rw [withMemWrite_of_hung e] at h; cases h
  | some wh =>
    rw [withMemWrite_of_ask (handled := wh.1) (h := wh.2) e] at h
    exact ⟨wh.1, wh.2, rfl, by cases h; rfl⟩

@[simp] theorem askRead_stubs : Hooks.askRead .stubs = some (.notControlled, .stubs) := rfl

@[simp] theorem askWrite_stubs : Hooks.askWrite .stubs = some (false, .stubs) := rfl

@[simp] theorem readValue_notControlled (s : State) (a : Addr) : readValue s a .notControlled = ramRead s a := rfl

@[simp] theorem readValue_byte (s : State) (a : Addr) (v : Byte) : readValue s a (.byte v) = v := rfl

/-! ### Cells -/

theorem toNat_ne_of_ne {a b : Addr} (h : b ≠ a) : b.toNat ≠ a.toNat := fun e => h (BitVec.eq_of_toNat_eq e)

/-- A store through the port does what R53 says, and no later change of other fields matters. -/
theorem stored_of_ram {a : Addr} {v : Byte} {handled : Bool}
    (h : t.ram = if handled then s.ram else Memory.write s.ram a.toNat v) : Stored s t a v handled where
  byHost e := by simpa [e] using h
  byEngine e hm := by
    simp only [e, Bool.false_eq_true, if_false] at h
    simpa [ramRead, h] using Memory.read_write_same hm
  others b hb := by
    cases handled
    · simp only [Bool.false_eq_true, if_false] at h
      simpa [ramRead, h] using Memory.read_write_ne (toNat_ne_of_ne hb) s.ram
    · simp only [if_true] at h
      simp [ramRead, h]

theorem wf_ramWrite {a : Addr} {v : Byte} (h : Memory.wf s.ram = true) :
    Memory.wf (ramWrite s a v).ram = true :=
  Memory.wf_write h a.isLt v

theorem wf_storeUnlessHandled {a : Addr} {v : Byte} {handled : Bool} (h : Memory.wf s.ram = true) :
    Memory.wf (storeUnlessHandled s a v handled).ram = true := by
  cases handled
  · exact wf_ramWrite h
  · exact h

theorem regsAre_writeReg {d : RegIdx} {v : Byte} (h : t.regs = s.regs) : RegsAre s (writeReg t d v) (some d) v := by
  intro q
  by_cases hq : d = q
  · subst hq; simp
  · rw [readReg_writeReg_ne t v (fun e => hq e.symm), readReg_congr h]
    simp [hq]

/-! ### Guards of the stepping operations -/

theorem stepRefusal_eq_none : stepRefusal s = none ↔ s.halted = false ∧ s.fault = none := by
  unfold stepRefusal
  cases s.halted <;> cases s.fault <;> simp

theorem stepRefusal_halted (h : s.halted = true) : stepRefusal s = some .stepWhileHalted := by
  simp [stepRefusal, h]

theorem stepRefusal_fault (h : s.halted = false) (hf : s.fault ≠ none) :
    stepRefusal s = some .stepAfterFault := by
  cases e : s.fault with
  | none => exact absurd e hf
  | some f => simp [stepRefusal, h, e]

/-- A step of a ready engine runs the word in `ir`. -/
theorem step_of_ready (h : Ready s) : step s = runCurrent s := by
  simp [step, stepOnce, stepRefusal_eq_none.mpr ⟨h.running, h.noFault⟩, h.boundary]

/-- A step that answers a next state was made by a ready engine, on a decoded instruction that answered one. -/
theorem step_next (h : step s = .next t) :
    Ready s ∧ ∃ i u, decode s.params s.ir = .ok i ∧ exec i s = .next u ∧ t = closingFetch i u := by
  unfold step stepOnce at h
  split at h
  · cases h
  · next hr =>
    split at h
    · next hu =>
      refine ⟨⟨(stepRefusal_eq_none.mp hr).1, (stepRefusal_eq_none.mp hr).2, hu⟩, ?_⟩
      unfold runCurrent at h
      split at h
      · cases h
      · next i hi =>
        unfold runToBoundary at h
        split at h
        · next u hx => exact ⟨i, u, hi, hx, by cases h; rfl⟩
        · cases h
        · cases h
    · cases h

/-- A microstep that answers a next state is an intermediate micro-op or runs the decoded instruction whole. -/
theorem microstep_next (h : microstep s = .next t) :
    s.halted = false ∧ s.fault = none ∧
    ((∃ m, currentEntry s = some m ∧ s.upc + 1 < s.params.microcycles m ∧ t = microfetch s) ∨
      ∃ i u, decode s.params s.ir = .ok i ∧ exec i s = .next u ∧ t = closingFetch i u) := by
  unfold microstep at h
  split at h
  · cases h
  · next hr =>
    refine ⟨(stepRefusal_eq_none.mp hr).1, (stepRefusal_eq_none.mp hr).2, ?_⟩
    split at h
    · cases h
    · next m hm =>
      split at h
      · next hlt => exact .inl ⟨m, hm, hlt, by cases h; rfl⟩
      · unfold runCurrent at h
        split at h
        · cases h
        · next i hi =>
          unfold runToBoundary at h
          split at h
          · next u hx => exact .inr ⟨i, u, hi, hx, by cases h; rfl⟩
          · cases h
          · cases h

theorem closingFetch_stop (u : State) : closingFetch .stop u = u := rfl

theorem closingFetch_of_ne {i : Instr} (h : i ≠ .stop) (u : State) : closingFetch i u = fetch u := by
  cases i <;> first | rfl | exact absurd rfl h

/-- Every instruction has at least one micro-op (R104). -/
theorem microcycles_pos (p : Params) (m : Mnemonic) : 0 < p.microcycles m := Nat.succ_pos _

end Sys2Proof.Machine
end

