-- ==== Sys2Proof/Laws/Exec.lean ====
section
/-! SUPPORT. One equation per instruction for the case it completes, over the shared operations, and one for the
case it stops: callers cite these and never unfold a meaning. -/

namespace Sys2Proof.Machine

open Host (Outcome)

variable {s : State}

/-! ### Arithmetic and rotates -/

theorem exec_add {d : RegIdx} {b : Byte} (h : b.toNat ≤ 7) :
    exec (.add d b) s = .next (finishArith s d (aluAdd (readReg s d) (readReg s (b.setWidth 3)))) :=
  withRegOperand_of_le h fun r => .next (finishArith s d (aluAdd (readReg s d) (readReg s r)))

theorem exec_sub {d : RegIdx} {b : Byte} (h : b.toNat ≤ 7) :
    exec (.sub d b) s = .next (finishArith s d (aluSub (readReg s d) (readReg s (b.setWidth 3)))) :=
  withRegOperand_of_le h fun r => .next (finishArith s d (aluSub (readReg s d) (readReg s r)))

theorem exec_cp {d : RegIdx} {b : Byte} (h : b.toNat ≤ 7) :
    exec (.cp d b) s = .next (finishCompare s (aluSub (readReg s d) (readReg s (b.setWidth 3)))) :=
  withRegOperand_of_le h fun r => .next (finishCompare s (aluSub (readReg s d) (readReg s r)))

theorem exec_addi (d : RegIdx) (k : Byte) :
    exec (.addi d k) s = .next (finishArith s d (aluAdd (readReg s d) k)) := rfl

theorem exec_subi (d : RegIdx) (k : Byte) :
    exec (.subi d k) s = .next (finishArith s d (aluSub (readReg s d) k)) := rfl

theorem exec_cpi (d : RegIdx) (k : Byte) :
    exec (.cpi d k) s = .next (finishCompare s (aluSub (readReg s d) k)) := rfl

theorem exec_rol (d : RegIdx) :
    exec (.rol d) s = .next (finishRotate s d (rotateLeft (readReg s d) s.flags.c)) := rfl

theorem exec_ror (d : RegIdx) :
    exec (.ror d) s = .next (finishRotate s d (rotateRight (readReg s d) s.flags.c)) := rfl

/-! ### Data transfer -/

theorem exec_mov {d : RegIdx} {b : Byte} (h : b.toNat ≤ 7) :
    exec (.mov d b) s = .next (writeReg (scratchDrawn s) d (readReg s (b.setWidth 3))) :=
  withRegOperand_of_le h fun r => .next (writeReg (scratchDrawn s) d (readReg s r))

theorem exec_ldi (d : RegIdx) (k : Byte) :
    exec (.ldi d k) s = .next (writeReg (scratchDrawn s) d k) := rfl

theorem loadByte_of_ask {d : RegIdx} {a : Addr} {r : ReadAnswer} {h : Hooks} (e : s.hooks.askRead = some (r, h)) :
    loadByte s d a =
      .next (writeReg (scratchAfterMove (afterHook s h (.read a)) a (readValue s a r)) d (readValue s a r)) :=
  withMemRead_of_ask e _

theorem storeByte_of_ask {x : RegIdx} {a : Addr} {handled : Bool} {h : Hooks}
    (e : s.hooks.askWrite = some (handled, h)) :
    storeByte s x a =
      .next (scratchAfterMove
        (storeUnlessHandled (afterHook s h (.write a (readReg s x))) a (readReg s x) handled) a (readReg s x)) :=
  withMemWrite_of_ask e _

theorem exec_ld {d : RegIdx} {b : Byte} (h : b.toNat ≤ 7) :
    exec (.ld d b) s = loadByte s d (readReg s (b.setWidth 3)) :=
  withRegOperand_of_le h fun r => loadByte s d (readReg s r)

theorem exec_lds (d : RegIdx) (a : Byte) : exec (.lds d a) s = loadByte s d a := rfl

theorem exec_st {x : RegIdx} {b : Byte} (h : b.toNat ≤ 7) :
    exec (.st x b) s = storeByte s x (readReg s (b.setWidth 3)) :=
  withRegOperand_of_le h fun i => storeByte s x (readReg s i)

theorem exec_sts (x : RegIdx) (a : Byte) : exec (.sts x a) s = storeByte s x a := rfl

/-! ### Control flow -/

theorem exec_jmp (g : Addr) : exec (.jmp g) s = .next (writePc (scratchDrawn s) g) := rfl

theorem exec_breq (g : Addr) : exec (.breq g) s = .next (branchIf s .eq g) := rfl

theorem exec_brlo (g : Addr) : exec (.brlo g) s = .next (branchIf s .lo g) := rfl

theorem exec_brov (g : Addr) : exec (.brov g) s = .next (branchIf s .ov g) := rfl

theorem exec_brlt (g : Addr) : exec (.brlt g) s = .next (branchIf s .lt g) := rfl

/-- A branch is the draw of the scratch registers with `pc` at the target or where it was (R171). -/
theorem branchIf_eq (s : State) (c : Condition) (g : Addr) :
    branchIf s c g =
      writePc (scratchDrawn s) (if holdsCond s.params.loTakenWhenC s.flags c then g else s.pc) := by
  unfold branchIf
  cases holdsCond s.params.loTakenWhenC s.flags c <;> rfl

theorem exec_call_of_ask {g : Addr} {handled : Bool} {h : Hooks} (e : s.hooks.askWrite = some (handled, h)) :
    exec (.call g) s =
      .next (writePc (writeSp (scratchDrawn
        (storeUnlessHandled (afterHook s h (.write s.sp s.pc)) s.sp s.pc handled)) (s.sp - 1)) g) :=
  withMemWrite_of_ask e _

theorem exec_ret_of_ask {r : ReadAnswer} {h : Hooks} (e : s.hooks.askRead = some (r, h)) :
    exec .ret s =
      .next (writePc (writeSp (scratchDrawn (afterHook s h (.read (s.sp + 1)))) (s.sp + 1))
        (readValue s (s.sp + 1) r)) :=
  withMemRead_of_ask e _

theorem exec_stop (s : State) : exec .stop s = .next { scratchDrawn s with halted := true, upc := 0 } := rfl

/-! ### Stops -/

theorem loadByte_of_hung {d : RegIdx} {a : Addr} (e : s.hooks.askRead = none) :
    loadByte s d a = .fault .hookNeverReturns :=
  withMemRead_of_hung e _

theorem storeByte_of_hung {x : RegIdx} {a : Addr} (e : s.hooks.askWrite = none) :
    storeByte s x a = .fault .hookNeverReturns :=
  withMemWrite_of_hung e _

theorem exec_call_of_hung {g : Addr} (e : s.hooks.askWrite = none) :
    exec (.call g) s = .fault .hookNeverReturns :=
  withMemWrite_of_hung e _

theorem exec_ret_of_hung (e : s.hooks.askRead = none) : exec .ret s = .fault .hookNeverReturns :=
  withMemRead_of_hung e _

end Sys2Proof.Machine
end

