-- ==== Sys2Proof/Laws/HostOps.lean ====
section
/-! SUPPORT. The fields of the states the host's operations leave, and what `load` answers. -/

namespace Sys2Proof.Machine

variable {s : State}

/-! ### Soft and hard reset -/

@[simp] theorem softReset_regs : (softReset s).regs = s.regs := rfl

@[simp] theorem softReset_pc : (softReset s).pc = 1#8 := rfl

@[simp] theorem softReset_sp : (softReset s).sp = 0xFF#8 := rfl

@[simp] theorem softReset_flags : (softReset s).flags = s.flags := rfl

@[simp] theorem softReset_ac : (softReset s).ac = s.ac := rfl

@[simp] theorem softReset_mar : (softReset s).mar = s.mar := rfl

@[simp] theorem softReset_mdr : (softReset s).mdr = s.mdr := rfl

@[simp] theorem softReset_ir : (softReset s).ir = romRead s 0#8 := rfl

@[simp] theorem softReset_upc : (softReset s).upc = 0 := rfl

@[simp] theorem softReset_halted : (softReset s).halted = false := rfl

@[simp] theorem softReset_rom : (softReset s).rom = s.rom := rfl

@[simp] theorem softReset_ram : (softReset s).ram = s.ram := rfl

@[simp] theorem softReset_fault : (softReset s).fault = s.fault := rfl

@[simp] theorem softReset_refused : (softReset s).refused = s.refused := rfl

@[simp] theorem softReset_hooks : (softReset s).hooks = s.hooks := rfl

@[simp] theorem softReset_hookCalls : (softReset s).hookCalls = s.hookCalls := rfl

@[simp] theorem softReset_draws : (softReset s).draws = s.draws := rfl

@[simp] theorem softReset_params : (softReset s).params = s.params := rfl

@[simp] theorem hardReset_regs (keep : Bool) : (hardReset keep s).regs = Vector.replicate 8 0#8 := rfl

@[simp] theorem hardReset_pc (keep : Bool) : (hardReset keep s).pc = 1#8 := rfl

@[simp] theorem hardReset_sp (keep : Bool) : (hardReset keep s).sp = 0xFF#8 := rfl

@[simp] theorem hardReset_flags (keep : Bool) : (hardReset keep s).flags = ⟨false, false, false, false⟩ := rfl

@[simp] theorem hardReset_ac (keep : Bool) : (hardReset keep s).ac = 0#8 := rfl

@[simp] theorem hardReset_mar (keep : Bool) : (hardReset keep s).mar = 0#8 := rfl

@[simp] theorem hardReset_mdr (keep : Bool) : (hardReset keep s).mdr = 0#8 := rfl

@[simp] theorem hardReset_ir (keep : Bool) : (hardReset keep s).ir = romRead { s with rom := if keep then s.rom else [] } 0#8 := rfl

@[simp] theorem hardReset_upc (keep : Bool) : (hardReset keep s).upc = 0 := rfl

@[simp] theorem hardReset_halted (keep : Bool) : (hardReset keep s).halted = false := rfl

@[simp] theorem hardReset_rom (keep : Bool) : (hardReset keep s).rom = if keep then s.rom else [] := rfl

@[simp] theorem hardReset_ram (keep : Bool) : (hardReset keep s).ram = [] := rfl

@[simp] theorem hardReset_fault (keep : Bool) : (hardReset keep s).fault = s.fault := rfl

@[simp] theorem hardReset_refused (keep : Bool) : (hardReset keep s).refused = s.refused := rfl

@[simp] theorem hardReset_hooks (keep : Bool) : (hardReset keep s).hooks = s.hooks := rfl

@[simp] theorem hardReset_hookCalls (keep : Bool) : (hardReset keep s).hookCalls = s.hookCalls := rfl

@[simp] theorem hardReset_draws (keep : Bool) : (hardReset keep s).draws = s.draws := rfl

@[simp] theorem hardReset_params (keep : Bool) : (hardReset keep s).params = s.params := rfl

/-! ### Hooks, and a rejected load -/

@[simp] theorem installHooks_regs (h : Hooks) : (installHooks h s).regs = s.regs := rfl

@[simp] theorem installHooks_pc (h : Hooks) : (installHooks h s).pc = s.pc := rfl

@[simp] theorem installHooks_sp (h : Hooks) : (installHooks h s).sp = s.sp := rfl

@[simp] theorem installHooks_flags (h : Hooks) : (installHooks h s).flags = s.flags := rfl

@[simp] theorem installHooks_ac (h : Hooks) : (installHooks h s).ac = s.ac := rfl

@[simp] theorem installHooks_mar (h : Hooks) : (installHooks h s).mar = s.mar := rfl

@[simp] theorem installHooks_mdr (h : Hooks) : (installHooks h s).mdr = s.mdr := rfl

@[simp] theorem installHooks_ir (h : Hooks) : (installHooks h s).ir = s.ir := rfl

@[simp] theorem installHooks_upc (h : Hooks) : (installHooks h s).upc = s.upc := rfl

@[simp] theorem installHooks_halted (h : Hooks) : (installHooks h s).halted = s.halted := rfl

@[simp] theorem installHooks_rom (h : Hooks) : (installHooks h s).rom = s.rom := rfl

@[simp] theorem installHooks_ram (h : Hooks) : (installHooks h s).ram = s.ram := rfl

@[simp] theorem installHooks_fault (h : Hooks) : (installHooks h s).fault = s.fault := rfl

@[simp] theorem installHooks_refused (h : Hooks) : (installHooks h s).refused = s.refused := rfl

@[simp] theorem installHooks_hooks (h : Hooks) : (installHooks h s).hooks = h := rfl

@[simp] theorem installHooks_hookCalls (h : Hooks) : (installHooks h s).hookCalls = s.hookCalls := rfl

@[simp] theorem installHooks_draws (h : Hooks) : (installHooks h s).draws = s.draws := rfl

@[simp] theorem installHooks_params (h : Hooks) : (installHooks h s).params = s.params := rfl

@[simp] theorem afterRejectedLoad_regs : (afterRejectedLoad s).regs = s.regs := rfl

@[simp] theorem afterRejectedLoad_pc : (afterRejectedLoad s).pc = s.pc := rfl

@[simp] theorem afterRejectedLoad_sp : (afterRejectedLoad s).sp = s.sp := rfl

@[simp] theorem afterRejectedLoad_flags : (afterRejectedLoad s).flags = s.flags := rfl

@[simp] theorem afterRejectedLoad_ac : (afterRejectedLoad s).ac = s.ac := rfl

@[simp] theorem afterRejectedLoad_mar : (afterRejectedLoad s).mar = s.mar := rfl

@[simp] theorem afterRejectedLoad_mdr : (afterRejectedLoad s).mdr = s.mdr := rfl

@[simp] theorem afterRejectedLoad_ir : (afterRejectedLoad s).ir = s.ir := rfl

@[simp] theorem afterRejectedLoad_upc : (afterRejectedLoad s).upc = s.upc := rfl

@[simp] theorem afterRejectedLoad_halted : (afterRejectedLoad s).halted = s.halted := rfl

@[simp] theorem afterRejectedLoad_rom : (afterRejectedLoad s).rom = unspecifiedRom s.draws := rfl

@[simp] theorem afterRejectedLoad_ram : (afterRejectedLoad s).ram = s.ram := rfl

@[simp] theorem afterRejectedLoad_fault : (afterRejectedLoad s).fault = s.fault := rfl

@[simp] theorem afterRejectedLoad_refused : (afterRejectedLoad s).refused = s.refused := rfl

@[simp] theorem afterRejectedLoad_hooks : (afterRejectedLoad s).hooks = s.hooks := rfl

@[simp] theorem afterRejectedLoad_hookCalls : (afterRejectedLoad s).hookCalls = s.hookCalls := rfl

@[simp] theorem afterRejectedLoad_draws : (afterRejectedLoad s).draws = s.draws + 1 := rfl

@[simp] theorem afterRejectedLoad_params : (afterRejectedLoad s).params = s.params := rfl

/-! ### Memories of unspecified contents -/

theorem wf_createdRom : Memory.wf createdRom = true := by
  unfold createdRom
  exact Memory.wf_writeAll _ Memory.wf_nil (by simp)

theorem wf_createdRam : Memory.wf createdRam = true := by
  unfold createdRam
  exact Memory.wf_writeAll _ Memory.wf_nil (by simp)

theorem wf_unspecifiedRom (draw : Nat) : Memory.wf (unspecifiedRom draw) = true := by
  unfold unspecifiedRom
  exact Memory.wf_writeAll _ Memory.wf_nil (by simp)

/-! ### Reading the state -/

/-- At an instruction boundary the host reads the state itself. -/
theorem shownState_of_upc (h : s.upc = 0) : shownState s = s := if_pos h

@[simp] theorem shownState_ir : (shownState s).ir = s.ir := by
  unfold shownState
  split <;> rfl

@[simp] theorem shownState_upc : (shownState s).upc = s.upc := by
  unfold shownState
  split <;> rfl

@[simp] theorem shownState_halted : (shownState s).halted = s.halted := by
  unfold shownState
  split <;> rfl

@[simp] theorem shownState_fault : (shownState s).fault = s.fault := by
  unfold shownState
  split <;> rfl

@[simp] theorem shownState_refused : (shownState s).refused = s.refused := by
  unfold shownState
  split <;> rfl

/-! ### Load -/

theorem all_hasEntry_iff {p : Params} {ws : List Word} :
    ws.all (hasEntry p) = true ↔ ∀ w ∈ ws, catalog p (opField w) ≠ none := by
  simp [hasEntry, Option.isSome_iff_ne_none]

theorem load_of_oversize {ws : List Word} (h : 256 < ws.length) : load ws s = (.oversize, afterRejectedLoad s) := by
  simp [load, h]

theorem load_of_assigned {ws : List Word} (hl : ws.length ≤ 256)
    (hc : ∀ w ∈ ws, catalog s.params (opField w) ≠ none) :
    load ws s = (.ok, softReset { s with rom := Memory.writeAll s.rom 0 ws }) := by
  unfold load
  rw [if_neg (by omega), if_pos (all_hasEntry_iff.mpr hc)]

theorem load_of_unassigned {ws : List Word} (hl : ws.length ≤ 256)
    (hc : ∃ w ∈ ws, catalog s.params (opField w) = none) :
    load ws s = (.unknownOpcode, afterRejectedLoad s) := by
  unfold load
  rw [if_neg (by omega), if_neg]
  rw [all_hasEntry_iff]
  push Not
  exact hc

end Sys2Proof.Machine
end

