-- ==== Sys2Proof/Laws/PerInstr.lean ====
section
/-! SUPPORT. The per-instruction family `Fields`: the word of an instruction has its opcode, its slot A and its slot
B in the three fields, under every parameter record (30_encoding.md R65, R82). -/

namespace Sys2Proof.Laws.Fields

/-- The three fields of an instruction's word. -/
def Statement (i : Instr) : Prop :=
  ∀ p : Params, opField (encode p i) = p.opc i.mnemonic ∧ aField (encode p i) = slotA p i ∧
    bField (encode p i) = slotB i

/-- An encoded word's fields are the slots it was made of. -/
theorem of_slots (i : Instr) : Statement i := fun p => by
  simp [encode]

theorem add (d : RegIdx) (b : Byte) : Statement (.add d b) := of_slots _
theorem sub (d : RegIdx) (b : Byte) : Statement (.sub d b) := of_slots _
theorem cp (d : RegIdx) (b : Byte) : Statement (.cp d b) := of_slots _
theorem addi (d : RegIdx) (k : Byte) : Statement (.addi d k) := of_slots _
theorem subi (d : RegIdx) (k : Byte) : Statement (.subi d k) := of_slots _
theorem cpi (d : RegIdx) (k : Byte) : Statement (.cpi d k) := of_slots _
theorem rol (d : RegIdx) : Statement (.rol d) := of_slots _
theorem ror (d : RegIdx) : Statement (.ror d) := of_slots _
theorem mov (d : RegIdx) (b : Byte) : Statement (.mov d b) := of_slots _
theorem ldi (d : RegIdx) (k : Byte) : Statement (.ldi d k) := of_slots _
theorem ld (d : RegIdx) (b : Byte) : Statement (.ld d b) := of_slots _
theorem st (r : RegIdx) (b : Byte) : Statement (.st r b) := of_slots _
theorem lds (d : RegIdx) (a : Byte) : Statement (.lds d a) := of_slots _
theorem sts (r : RegIdx) (a : Byte) : Statement (.sts r a) := of_slots _
theorem jmp (t : Addr) : Statement (.jmp t) := of_slots _
theorem breq (t : Addr) : Statement (.breq t) := of_slots _
theorem brlo (t : Addr) : Statement (.brlo t) := of_slots _
theorem brov (t : Addr) : Statement (.brov t) := of_slots _
theorem brlt (t : Addr) : Statement (.brlt t) := of_slots _
theorem call (t : Addr) : Statement (.call t) := of_slots _
theorem ret : Statement (.ret) := of_slots _
theorem stop : Statement (.stop) := of_slots _

end Sys2Proof.Laws.Fields
end

