-- ==== Sys2Proof/Machine/AssemblyText.lean ====
section
/-! DEFINITION. Assembly text (30_encoding.md R95 to R98): a line of characters read into its parts, and a source
text into words. The comment marker and the longest symbol are in no source (91_not_in_source.md N15, R98), so they
are arguments; what separates words, and the bound of an `.EQU` value, are the model's: DESIGN CHOICE, log entry 14. -/

namespace Sys2Proof.Machine

/-! ### Characters and tokens -/

/-- "uppercased wholesale during line ingestion" (R95). -/
def upperChar (c : Char) : Char :=
  if 'a'.toNat ≤ c.toNat ∧ c.toNat ≤ 'z'.toNat then Char.ofNat (c.toNat - 32) else c

/-- An uppercased letter. -/
def isUpperLetter (c : Char) : Bool := decide ('A'.toNat ≤ c.toNat) && decide (c.toNat ≤ 'Z'.toNat)

/-- A decimal digit. -/
def isDecimalDigit (c : Char) : Bool := decide ('0'.toNat ≤ c.toNat) && decide (c.toNat ≤ '9'.toNat)

/-- A character that continues an identifier (R98). -/
def isNameChar (c : Char) : Bool := isUpperLetter c || isDecimalDigit c || c == '_'

/-- A character of a word: of an identifier, a directive (R95) or a literal (R96). -/
def isWordChar (c : Char) : Bool := isNameChar c || c == '.' || c == '$' || c == '+' || c == '-'

/-- The tokens of a line. -/
inductive Token where
  | word (cs : List Char)
  | comma
  | colon
  | equals
  | leftParen
  | rightParen
  /-- A character of no other token: a wrong token kind wherever it stands (R97). -/
  | other (c : Char)
  deriving DecidableEq, Repr

/-- The word read so far, if any, before the tokens that follow. -/
def flushWord (acc : List Char) (ts : List Token) : List Token :=
  match acc with
  | [] => ts
  | _ :: _ => .word acc.reverse :: ts

/-- The token of a character that is in no word. -/
def punctuation (c : Char) : Token :=
  if c = ',' then .comma
  else if c = ':' then .colon
  else if c = '=' then .equals
  else if c = '(' then .leftParen
  else if c = ')' then .rightParen
  else .other c

/-- The tokens of an uppercased line up to its comment, the current word held reversed in `acc`. -/
def tokensFrom (comment : Char) (acc : List Char) : List Char → List Token
  | [] => flushWord acc []
  | c :: cs =>
    if c = comment then flushWord acc []
    else if isWordChar c then tokensFrom comment (c :: acc) cs
    else if c = ' ' ∨ c = '\t' ∨ c = '\r' then flushWord acc (tokensFrom comment [] cs)
    else flushWord acc (punctuation c :: tokensFrom comment [] cs)

/-- An identifier: a letter, then letters, digits and underscores, no longer than the bound (R98). -/
def isIdentifier (maxLength : Nat) : List Char → Bool
  | [] => false
  | c :: cs => isUpperLetter c && cs.all isNameChar && decide (cs.length + 1 ≤ maxLength)

/-! ### Lines -/

/-- What is wrong with an operand. -/
inductive OperandError where
  /-- A wrong token, a missing separator before it, or trailing garbage after it (R97). -/
  | malformed
  /-- A literal above the bound (R96). -/
  | outOfBounds
  deriving DecidableEq, Repr

/-- The operand with the error: its position, from 1 (R97). -/
structure BadOperand where
  position : Nat
  error : OperandError
  deriving DecidableEq, Repr

/-- Why a line is rejected. -/
inductive LineError where
  /-- A line of none of the forms of R95: an `.EQU` line without name, sign or value, or no first word. -/
  | badLine
  /-- The first word of an instruction is no mnemonic. -/
  | unknownMnemonic
  /-- An operand of an instruction (R97). -/
  | badOperand (m : Mnemonic) (operand : BadOperand)
  /-- An operand of `.OPCODE` (R93, R97). -/
  | badOpcodeOperand (operand : BadOperand)
  /-- The literal of an `.EQU` line (R96, R98). -/
  | badEquValue (error : OperandError)
  deriving DecidableEq, Repr

/-- The mnemonic a word spells (R16, R17). -/
def mnemonicOf (w : List Char) : Option Mnemonic :=
  if w = ['A', 'D', 'D'] then some .add
  else if w = ['S', 'U', 'B'] then some .sub
  else if w = ['C', 'P'] then some .cp
  else if w = ['A', 'D', 'D', 'I'] then some .addi
  else if w = ['S', 'U', 'B', 'I'] then some .subi
  else if w = ['C', 'P', 'I'] then some .cpi
  else if w = ['R', 'O', 'L'] then some .rol
  else if w = ['R', 'O', 'R'] then some .ror
  else if w = ['M', 'O', 'V'] then some .mov
  else if w = ['L', 'D', 'I'] then some .ldi
  else if w = ['L', 'D'] then some .ld
  else if w = ['S', 'T'] then some .st
  else if w = ['L', 'D', 'S'] then some .lds
  else if w = ['S', 'T', 'S'] then some .sts
  else if w = ['J', 'M', 'P'] then some .jmp
  else if w = ['B', 'R', 'E', 'Q'] then some .breq
  else if w = ['B', 'R', 'L', 'O'] then some .brlo
  else if w = ['B', 'R', 'O', 'V'] then some .brov
  else if w = ['B', 'R', 'L', 'T'] then some .brlt
  else if w = ['C', 'A', 'L', 'L'] then some .call
  else if w = ['R', 'E', 'T'] then some .ret
  else if w = ['S', 'T', 'O', 'P'] then some .stop
  else none

/-! ### Operands -/

/-- A literal byte (R93, R96, R98). -/
def literalByte (w : List Char) : Except OperandError Byte :=
  match literal 255 w with
  | .error .invalid => .error .malformed
  | .error .outOfBounds => .error .outOfBounds
  | .ok n => .ok (BitVec.ofNat 8 n)

/-- An 8-bit value: a literal (R96) or a symbol (R97). -/
def slotValue (maxSymbol : Nat) (w : List Char) : Except OperandError SlotValue :=
  if isIdentifier maxSymbol w then .ok (.symbol w) else (literalByte w).map .known

/-- A register (R97). -/
def registerOperand (w : List Char) : Except OperandError RegIdx :=
  match registerName w with
  | none => .error .malformed
  | some r => .ok r

/-- A reader of one operand from the tokens that are left: the operand, and the tokens after it. -/
abbrev OperandReader (α : Type) := List Token → Except OperandError (α × List Token)

/-- An operand of one word. -/
def readWord {α : Type} (f : List Char → Except OperandError α) : OperandReader α
  | .word w :: rest => (f w).map fun a => (a, rest)
  | _ => .error .malformed

/-- The address register of LD and ST, with or without parentheses (R82). -/
def readIndirect : OperandReader RegIdx
  | .leftParen :: .word w :: .rightParen :: rest => (registerOperand w).map fun r => (r, rest)
  | .leftParen :: _ => .error .malformed
  | ts => readWord registerOperand ts

/-- The last operand, at the given position: nothing may stand after it (R97). That what does is an error of this
operand is a DESIGN CHOICE, log entry 14. -/
def lastOperand {α : Type} (position : Nat) (read : OperandReader α) (ts : List Token) : Except BadOperand α :=
  match read ts with
  | .error e => .error ⟨position, e⟩
  | .ok (a, []) => .ok a
  | .ok (_, _ :: _) => .error ⟨position, .malformed⟩

/-- Two operands with a comma between them; where it is missing, the second is named at fault (R97; DESIGN CHOICE, log
entry 14). -/
def twoOperands {α β : Type} (first : OperandReader α) (second : OperandReader β) (ts : List Token) :
    Except BadOperand (α × β) :=
  match first ts with
  | .error e => .error ⟨1, e⟩
  | .ok (a, .comma :: rest) => (lastOperand 2 second rest).map fun b => (a, b)
  | .ok (_, _) => .error ⟨2, .malformed⟩

/-- The operands of a mnemonic (R82, R97). RET and STOP have none, and the position named for what stands after them
is 1: DESIGN CHOICE, log entry 14. -/
def operandsOf (maxSymbol : Nat) (m : Mnemonic) (ts : List Token) : Except BadOperand AsmInstr :=
  match m.format with
  | .a =>
    let first := if m = .st then readIndirect else readWord registerOperand
    let second := if m = .ld then readIndirect else readWord registerOperand
    (twoOperands first second ts).map fun x => .regReg m x.1 x.2
  | .b =>
    if m = .sts then
      (twoOperands (readWord (slotValue maxSymbol)) (readWord registerOperand) ts).map fun x => .valueReg m x.1 x.2
    else
      (twoOperands (readWord registerOperand) (readWord (slotValue maxSymbol)) ts).map fun x => .regValue m x.1 x.2
  | .c => (lastOperand 1 (readWord (slotValue maxSymbol)) ts).map (.address m)
  | .d => (lastOperand 1 (readWord registerOperand) ts).map (.reg m)
  | .e => if ts = [] then .ok (.bare m) else .error ⟨1, .malformed⟩

/-! ### The forms of a line -/

/-- A mnemonic instruction (R95). -/
def instructionOf (maxSymbol : Nat) : List Token → Except LineError AsmInstr
  | .word w :: ts =>
    match mnemonicOf w with
    | none => .error .unknownMnemonic
    | some m => (operandsOf maxSymbol m ts).mapError (.badOperand m)
  | _ => .error .unknownMnemonic

/-- `.EQU NAME = VALUE` after its first word (R95, R98). -/
def equLine (maxSymbol : Nat) : List Token → Except LineError AsmLine
  | .word name :: .equals :: rest =>
    if isIdentifier maxSymbol name then
      match lastOperand 1 (readWord literalByte) rest with
      | .error e => .error (.badEquValue e.error)
      | .ok v => .ok (.equ name v)
    else .error .badLine
  | _ => .error .badLine

/-- `.OPCODE MSB, LSB` after its first word (R93, R95). -/
def opcodeLine (maxSymbol : Nat) (ts : List Token) : Except LineError AsmLine :=
  match twoOperands (readWord literalByte) (readWord (slotValue maxSymbol)) ts with
  | .error e => .error (.badOpcodeOperand e)
  | .ok (msb, lsb) => .ok (.opcode msb lsb)

/-- A label line after its colon (R95). -/
def labelLine (maxSymbol : Nat) (name : List Char) (ts : List Token) : Except LineError AsmLine :=
  if isIdentifier maxSymbol name then
    match instructionOf maxSymbol ts with
    | .error e => .error e
    | .ok i => .ok (.labelled name i)
  else .error .badLine

/-- The tokens of a line as a line, in the strict order of R95; none for a blank line. -/
def lineOfTokens (maxSymbol : Nat) (ts : List Token) : Except LineError (Option AsmLine) :=
  match ts with
  | [] => .ok none
  | .word w :: .colon :: rest => (labelLine maxSymbol w rest).map some
  | .word w :: rest =>
    if w = ['.', 'E', 'Q', 'U'] then (equLine maxSymbol rest).map some
    else if w = ['.', 'O', 'P', 'C', 'O', 'D', 'E'] then (opcodeLine maxSymbol rest).map some
    else (instructionOf maxSymbol ts).map fun i => some (.plain i)
  | _ => .error .badLine

/-- One line of text (R95). -/
def lineOfText (comment : Char) (maxSymbol : Nat) (cs : List Char) : Except LineError (Option AsmLine) :=
  lineOfTokens maxSymbol (tokensFrom comment [] (cs.map upperChar))

/-- The lines of a source text, blank ones left out, up to the first error (R95). -/
def linesOfText (comment : Char) (maxSymbol : Nat) : List (List Char) → Except LineError (List AsmLine)
  | [] => .ok []
  | cs :: rest =>
    match lineOfText comment maxSymbol cs with
    | .error e => .error e
    | .ok none => linesOfText comment maxSymbol rest
    | .ok (some l) => (linesOfText comment maxSymbol rest).map (l :: ·)

/-- Why a source text gives no words. -/
inductive TextError where
  | line (e : LineError)
  | assembly (e : AsmError)
  deriving DecidableEq, Repr

/-- The words of a source text and the number of warnings (R82, R93 to R99). -/
def assembleText (p : Params) (comment : Char) (maxSymbol : Nat) (text : List (List Char)) :
    Except TextError (List Word × Nat) :=
  match linesOfText comment maxSymbol text with
  | .error e => .error (.line e)
  | .ok ls =>
    match assemble p ls with
    | .error e => .error (.assembly e)
    | .ok r => .ok r

end Sys2Proof.Machine
end

