-- ==== Sys2Proof/Tests/Slice0.lean ====
section
/-! SUPPORT. The tests: ill-formed terms the checks refuse, words written out from 30_encoding.md, vectors of
95_test_vectors.md (named by their row), and for every obligation with hypotheses a witness that they can be met
together. -/

namespace Sys2Proof.Tests

open Sys2Proof.Machine Sys2Proof.Safety
open Host (Outcome)

/-! ### Helpers -/

/-- The outcome is a next state that `f` accepts. -/
def nextIs (f : State → Bool) : Outcome State Fault Refusal → Bool
  | .next t => f t
  | .fault _ => false
  | .refused _ => false

/-- One step that runs the word `w` in `s`. -/
def runWord (s : State) (w : Nat) : Outcome State Fault Refusal := step (s.withFetchWord 16 w)

/-- Reset with two registers set. -/
def withRegs (d : RegIdx) (x : Byte) (e : RegIdx) (y : Byte) : State := writeReg (writeReg State.reset d x) e y

/-- Reset with the flags Z, N, C, V. -/
def withFlags (z n c v : Bool) : State := writeFlags State.reset ⟨z, n, c, v⟩

/-- Reset about to run the word in cell 4, as the branch vectors B1 to B10 stand. -/
def atCell4 (s : State) : State := { s with pc := 5#8 }

/-- Reset with the polarity of BRLO given. -/
def withPolarity (lo : Bool) (s : State) : State := { s with params := { s.params with loTakenWhenC := lo } }

/-- Every instruction with the same control sequence of `k + 1` micro-ops. -/
def sameSignals (k : Nat) : PerMnemonic (SignalSeq 8) :=
  let q : SignalSeq 8 := ⟨7, List.replicate k 9⟩
  ⟨q, q, q, q, q, q, q, q, q, q, q, q, q, q, q, q, q, q, q, q, q, q⟩

/-- Reset with three micro-ops in every instruction, the word of `LDI R0, 5` fetched (section 7). -/
def threeMicroOps : State :=
  { State.reset with params := { resetParams with ctrlW := 8, signals := sameSignals 2 } }.withFetchWord 16 0x4805

/-- Reset with hooks of the host that have the given answers. -/
def withHooks (rs : List ReadAnswer) (ws : List Bool) : State := installHooks (.installed rs ws) State.reset

/-- Reset about to run the word `w`. -/
def fetched (w : Nat) : State := State.reset.withFetchWord 16 w

/-! ### Well-formedness -/

theorem test_wellFormed_accepts_seven : (Instr.add 7 7).wellFormed = true := by decide

theorem test_wellFormed_refuses_add_8 : (Instr.add 0 8).wellFormed = false := by decide

theorem test_wellFormed_refuses_st_255 : (Instr.st 0 255).wellFormed = false := by decide

theorem test_params_refuse_equal_opcodes :
    Params.wf { resetParams with opcodes := { testcfgOpcodes with ldi := 22 } } = false := by decide

theorem test_params_refuse_add_not_five :
    Params.wf { resetParams with opcodes := { testcfgOpcodes with add := 31 } } = false := by decide

/-! ### Encoder and decoder: E1 to E12, S1, S10, and one word of every instruction -/

theorem test_encode_vectors :
    encodeFields 5 0 5 = 0x2805#16 ∧ encodeFields 31 7 255 = 0xFFFF#16 ∧ encodeFields 0 8 0 = 0x0800#16 ∧
      encodeFields 0 31 0 = 0x1F00#16 ∧ encodeFields 5 8 5 = 0x2805#16 := by decide

theorem test_wide_slotA_fields :
    opField 0x0800#16 = 1 ∧ aField 0x0800#16 = 0 ∧ opField 0x1F00#16 = 3 ∧ aField 0x1F00#16 = 7 := by decide

theorem test_decode_formatA_arith :
    decodeTableWord 16 0b0010100000000101 = some (.add 0 5) ∧
    decodeTableWord 16 0b0011101000000011 = some (.sub 2 3) ∧
    decodeTableWord 16 0b0100000000000001 = some (.cp 0 1) := by decide

theorem test_decode_formatA_moves :
    decodeTableWord 16 0b0011000100000011 = some (.mov 1 3) ∧
    decodeTableWord 16 0b0000110100000100 = some (.ld 5 4) ∧
    decodeTableWord 16 0b0001000100000010 = some (.st 1 2) := by decide

theorem test_decode_formatB :
    decodeTableWord 16 0b0101000100000010 = some (.addi 1 2) ∧
    decodeTableWord 16 0b0101100011111111 = some (.subi 0 255) ∧
    decodeTableWord 16 0b0110000000000001 = some (.cpi 0 1) ∧
    decodeTableWord 16 0b0100111111111111 = some (.ldi 7 255) ∧
    decodeTableWord 16 0b0001101101000000 = some (.lds 3 0x40) ∧
    decodeTableWord 16 0b0010000100010000 = some (.sts 1 0x10) := by decide

theorem test_decode_formatC :
    decodeTableWord 16 0b0111100000000110 = some (.breq 6) ∧
    decodeTableWord 16 0b0111111100000110 = some (.breq 6) ∧
    decodeTableWord 16 0b1000000100000110 = some (.brlo 6) ∧
    decodeTableWord 16 0b1000101000000110 = some (.brov 6) ∧
    decodeTableWord 16 0b1001001100000110 = some (.brlt 6) ∧
    decodeTableWord 16 0b1001100000000010 = some (.jmp 2) ∧
    decodeTableWord 16 0b1010000000001010 = some (.call 10) := by decide

theorem test_decode_formatD_and_E :
    decodeTableWord 16 0b0110100000000111 = some (.rol 0) ∧
    decodeTableWord 16 0b0111000000000000 = some (.ror 0) ∧
    decodeTableWord 16 0b1010100000000000 = some .ret ∧
    decodeTableWord 16 0b1011000011111111 = some .stop := by decide

theorem test_reserved_opcodes_refused :
    decodeTableWord 16 0 = none ∧ decodeTableWord 16 0xB800 = none ∧ decodeTableWord 16 0xFFFF = none := by decide

/-- S10, E6 and E12. -/
theorem test_validity_verdicts :
    validWord resetParams 0x08A3 = false ∧ validWord resetParams 0x2F1F = false ∧
    validWord resetParams 0x4805 = true ∧ rawWord resetParams 0 0 = none ∧
    rawWord resetParams 0x28 5 = some 0x2805 := by decide

/-! ### The assembler: S1, S4, S6 to S8, A29, and the operand order of ST and STS -/

theorem test_literal_spellings :
    literal 255 ['1', '0'] = .ok 10 ∧ literal 255 ['0', 'X', 'A'] = .ok 10 ∧ literal 255 ['$', 'A'] = .ok 10 ∧
    literal 255 ['0', 'B', '1', '0', '1', '0'] = .ok 10 := by decide

theorem test_literal_bounds :
    literal 255 ['2', '5', '6'] = .error .outOfBounds ∧
    literal 255 ['0', 'X', '1', '0', '0'] = .error .outOfBounds ∧ literal 255 ['-', '1'] = .ok 255 := by decide

theorem test_equ_first_binding_wins :
    assemble resetParams [.equ ['F'] 5, .equ ['F'] 9, .plain (.regValue .ldi 0 (.symbol ['F']))] =
      .ok ([0x4805#16], 1) := by decide

theorem test_forward_label :
    assemble resetParams [.plain (.regValue .lds 1 (.symbol ['L'])), .labelled ['L'] (.bare .stop)] =
      .ok ([0x1901#16, 0xB000#16], 0) := by decide

theorem test_st_swaps_and_sts_takes_address_first :
    assemble resetParams [.plain (.regReg .st 2 1)] = .ok ([0x1102#16], 0) ∧
    assemble resetParams [.plain (.valueReg .sts (.known 0x10) 1)] = .ok ([0x2110#16], 0) := by decide

theorem test_cfield_goes_to_slotA :
    assemble { resetParams with cfields := ⟨0, 0, 1, 2, 3, 0⟩ } [.plain (.address .brlt (.known 6))] =
      .ok ([0x9306#16], 0) := by decide

/-- S1 and S6, with lower case and a comment. -/
theorem test_text_opcode_and_add :
    assembleText resetParams ';' 16 [".opcode 0x28, 5 ; raw".toList, "".toList, "ADD R0, R5".toList] =
      .ok ([0x2805#16, 0x2805#16], 0) := by decide

/-- P2, its loads and stores. -/
theorem test_text_memory_syntax :
    assembleText resetParams ';' 16
        ["SUB1: LDI R1, 0x7F".toList, "ST (R2), R1".toList, "LD R5, (R4)".toList, "STS 0x10, R1".toList,
          "LDS R3, SUB1".toList, "RET".toList] =
      .ok ([0x497F#16, 0x1102#16, 0x0D04#16, 0x2110#16, 0x1B00#16, 0xA800#16], 0) := by decide

/-- R97: register 8, a missing separator, trailing garbage, and R96: a literal above its bound. -/
theorem test_text_malformed_operands :
    lineOfText ';' 16 "ADD R0, R8".toList = .error (.badOperand .add ⟨2, .malformed⟩) ∧
    lineOfText ';' 16 "LDI R0 5".toList = .error (.badOperand .ldi ⟨2, .malformed⟩) ∧
    lineOfText ';' 16 "ROL R0 R1".toList = .error (.badOperand .rol ⟨1, .malformed⟩) ∧
    lineOfText ';' 16 "LDI R0, 256".toList = .error (.badOperand .ldi ⟨2, .outOfBounds⟩) := by decide

/-- R97: the position is the second operand's where the first is well formed, whatever token stands there. -/
theorem test_text_errors_name_the_position :
    lineOfText ';' 16 "ST (R1), (R2)".toList = .error (.badOperand .st ⟨2, .malformed⟩) ∧
    lineOfText ';' 16 "ST (R1),".toList = .error (.badOperand .st ⟨2, .malformed⟩) ∧
    lineOfText ';' 16 "ST (R1), R2 X".toList = .error (.badOperand .st ⟨2, .malformed⟩) ∧
    lineOfText ';' 16 "ST (R1, R2".toList = .error (.badOperand .st ⟨1, .malformed⟩) ∧
    lineOfText ';' 16 "LDI R0, #5".toList = .error (.badOperand .ldi ⟨2, .malformed⟩) := by decide

/-! ### Arithmetic: A2 to A18 -/

theorem test_alu_add_A2 : aluAdd 0x7F 0x01 = ⟨0x80, false, true, false, true⟩ := by decide

theorem test_alu_add_A4 : aluAdd 0x80 0x80 = ⟨0x00, true, false, true, true⟩ := by decide

theorem test_alu_sub_A11 : aluSub 0x80 0x01 = ⟨0x7F, false, false, true, true⟩ := by decide

theorem test_alu_sub_A15 : aluSub 0x00 0x01 = ⟨0xFF, false, true, false, false⟩ := by decide

theorem test_add_A19 :
    nextIs (fun t => readReg t 0 == 8 && readReg t 1 == 3 && t.ac == 8 && t.flags == ⟨false, false, false, false⟩)
      (runWord (withRegs 0 5 1 3) 0x2801) = true := by decide

theorem test_add_same_register_A20 :
    nextIs (fun t => readReg t 3 == 0x20 && t.flags == ⟨false, false, true, true⟩)
      (runWord (withRegs 3 0x90 3 0x90) 0x2B03) = true := by decide

theorem test_sub_A21 :
    nextIs (fun t => readReg t 2 == 0xFE && readReg t 3 == 5 && t.flags == ⟨false, true, false, false⟩)
      (runWord (withRegs 2 3 3 5) 0x3A03) = true := by decide

theorem test_cp_A23 :
    nextIs (fun t => readReg t 0 == 0x81 && t.ac == 0x80 && t.flags == ⟨false, true, true, false⟩)
      (runWord (withRegs 0 0x81 1 1) 0x4001) = true := by decide

theorem test_addi_A25 :
    nextIs (fun t => readReg t 0 == 0x80 && t.flags == ⟨false, true, false, true⟩)
      (runWord (withRegs 0 0x7F 1 0) 0x5001) = true := by decide

theorem test_subi_A27 :
    nextIs (fun t => readReg t 0 == 1 && t.flags == ⟨false, false, false, false⟩)
      (runWord (withRegs 0 0 1 0) 0x58FF) = true := by decide

theorem test_cpi_A28 :
    nextIs (fun t => readReg t 0 == 0x81 && t.ac == 0x80 && t.flags == ⟨false, true, true, false⟩)
      (runWord (withRegs 0 0x81 1 0) 0x6001) = true := by decide

/-- A30. -/
theorem test_add_faults_on_register_8 :
    runWord State.reset 0x2808 = .fault (.registerIndexOutOfRange 1 0x2808) := rfl

/-! ### Rotates: T1, T2, T7, T8 -/

theorem test_rol_T2 :
    nextIs (fun t => readReg t 0 == 0x81 && t.flags == ⟨false, true, false, true⟩)
      (runWord (writeReg (withFlags false false true false) 0 0x40) 0x6800) = true := by decide

theorem test_rol_T1 :
    nextIs (fun t => readReg t 0 == 0 && t.flags == ⟨true, false, true, true⟩)
      (runWord (withRegs 0 0x80 1 0) 0x6800) = true := by decide

theorem test_ror_T7 :
    nextIs (fun t => readReg t 0 == 0 && t.flags == ⟨true, false, true, true⟩)
      (runWord (withRegs 0 1 1 0) 0x7000) = true := by decide

theorem test_ror_T8 :
    nextIs (fun t => readReg t 0 == 0xC0 && t.flags == ⟨false, true, false, true⟩)
      (runWord (writeReg (withFlags false false true false) 0 0x80) 0x7000) = true := by decide

/-! ### Data transfer: M1 to M10 -/

theorem test_mov_M1 :
    nextIs (fun t => readReg t 1 == 0x42 && readReg t 3 == 0x42) (runWord (withRegs 3 0x42 0 0) 0x3103) = true := by
  decide

theorem test_ldi_M3 :
    nextIs (fun t => readReg t 7 == 0xFF && t.flags == ⟨false, false, false, false⟩)
      (runWord State.reset 0x4FFF) = true := by decide

theorem test_ld_M4 :
    nextIs (fun t => readReg t 5 == 0xA5 && t.mar == 0x10 && t.mdr == 0xA5)
      (runWord (ramWrite (withRegs 4 0x10 0 0) 0x10 0xA5) 0x0D04) = true := by decide

theorem test_st_M5 :
    nextIs (fun t => ramRead t 0x40 == 0x7F && t.mar == 0x40 && t.mdr == 0x7F)
      (runWord (withRegs 2 0x40 1 0x7F) 0x1102) = true := by decide

theorem test_lds_M6 :
    nextIs (fun t => readReg t 3 == 0x7F && t.mar == 0x40)
      (runWord (ramWrite State.reset 0x40 0x7F) 0x1B40) = true := by decide

/-- M9, its first word. -/
theorem test_lds_hook_M9 :
    nextIs (fun t => readReg t 0 == 0x55 && t.hookCalls == [.read 0xF0])
      (runWord (withHooks [.byte 0x55] []) 0x18F0) = true := by decide

theorem test_sts_M7 :
    nextIs (fun t => ramRead t 0x10 == 0x55) (runWord (withRegs 1 0x55 0 0) 0x2110) = true := by decide

/-- M9, its second word. -/
theorem test_sts_handled_M9 :
    nextIs (fun t => ramRead t 0xF1 == 0 && t.hookCalls == [.write 0xF1 0x55])
      (runWord (writeReg (withHooks [] [true]) 0 0x55) 0x20F1) = true := by decide

/-- M10, with the word its instruction has under TESTCFG, 0x0908; the row's 0x0108 has opcode 0 (log entry 15). -/
theorem test_ld_faults_on_register_8 :
    runWord State.reset 0x0908 = .fault (.registerIndexOutOfRange 1 0x0908) := rfl

/-! ### Control flow: B1 to B10, J1 to J9. A step that runs a branch ends with a fetch, so `pc` is one past the
target. -/

theorem test_breq_B1 :
    nextIs (fun t => t.pc == 7) (runWord (atCell4 (withFlags true false false false)) 0x7806) = true := by decide

theorem test_breq_B2 :
    nextIs (fun t => t.pc == 6) (runWord (atCell4 (withFlags false false false false)) 0x7806) = true := by decide

theorem test_brov_B3 :
    nextIs (fun t => t.pc == 7) (runWord (atCell4 (withFlags false false false true)) 0x8A06) = true := by decide

theorem test_brlt_B6 :
    nextIs (fun t => t.pc == 6) (runWord (atCell4 (withFlags false true false true)) 0x9306) = true := by decide

theorem test_brlt_B7 :
    nextIs (fun t => t.pc == 7) (runWord (atCell4 (withFlags false false false true)) 0x9306) = true := by decide

/-- B9 and B10 with `LO_TAKEN_WHEN_C = 0`. -/
theorem test_brlo_taken_when_clear :
    nextIs (fun t => t.pc == 7)
        (runWord (atCell4 (withPolarity false (withFlags false false false false))) 0x8106) = true ∧
      nextIs (fun t => t.pc == 6)
        (runWord (atCell4 (withPolarity false (withFlags false false true false))) 0x8106) = true := by decide

/-- B9 and B10 with `LO_TAKEN_WHEN_C = 1`. -/
theorem test_brlo_taken_when_set :
    nextIs (fun t => t.pc == 6)
        (runWord (atCell4 (withPolarity true (withFlags false false false false))) 0x8106) = true ∧
      nextIs (fun t => t.pc == 7)
        (runWord (atCell4 (withPolarity true (withFlags false false true false))) 0x8106) = true := by decide

theorem test_jmp_J1 : nextIs (fun t => t.pc == 3) (runWord { State.reset with pc := 6 } 0x9802) = true := by decide

theorem test_call_J2 :
    nextIs (fun t => ramRead t 0xFF == 1 && t.sp == 0xFE && t.pc == 11) (runWord State.reset 0xA00A) = true := by
  decide

/-- J7. -/
theorem test_call_handled_by_host :
    nextIs (fun t => t.ram == [] && t.sp == 0xFE && t.hookCalls == [.write 0xFF 1])
      (runWord (withHooks [] [true]) 0xA00A) = true := by decide

theorem test_ret_J6 :
    nextIs (fun t => t.sp == 0 && t.pc == 0x34) (runWord (ramWrite State.reset 0 0x33) 0xA800) = true := by decide

theorem test_stop_J8 :
    nextIs (fun t => t.halted && t.pc == 4 && t.ir == 0xB000 && t.upc == 0)
      (runWord { State.reset with pc := 4 } 0xB000) = true := by decide

/-- J9. -/
theorem test_step_refused_while_halted : step { State.reset with halted := true } = .refused .stepWhileHalted := rfl

/-! ### Sequencer, faults and reset: section 7, F4, F5, K5, Q1, Q3 -/

theorem test_microstep_moves_upc : nextIs (fun t => t.upc == 1 && t.ir == 0x4805) (microstep threeMicroOps) = true := by
  decide

theorem test_last_microstep_executes :
    nextIs (fun t => readReg t 0 == 5 && t.pc == 2 && t.upc == 0) (microstep { threeMicroOps with upc := 2 }) = true := by
  decide

theorem test_step_refused_mid_instruction : step { threeMicroOps with upc := 1 } = .refused .stepMidInstruction := rfl

/-- F4: a fetch of an unassigned word does not fault. -/
theorem test_fetch_never_faults :
    nextIs (fun t => t.pc == 6 && t.ir == 0) (runWord State.reset 0x9805) = true := by decide

/-- F5 and F8. -/
theorem test_unknown_opcode_at_reset : step State.reset = .fault (.unknownOpcode 1 0) := rfl

/-- R191: the last microstep of `ADD R0` with field B = 8 leaves the boundary before it, marked. -/
theorem test_microstep_fault_leaves_boundary :
    hostMicrostep { threeMicroOps with ir := 0x2808, upc := 2 } =
      .faulted { threeMicroOps with ir := 0x2808, fault := some (.registerIndexOutOfRange 1 0x2808) } := rfl

/-- R214: at the boundary of reset the host reads `pc` and `sp`, and R34's control signals. -/
theorem test_readState_at_boundary :
    (readState State.reset).pc = 1 ∧ (readState State.reset).sp = 0xFF ∧ (readState threeMicroOps).ctrl.toNat = 7 := by
  decide

/-- R214 and R34: in the middle of an instruction the host reads `ir`, `upc` and the next control signals. -/
theorem test_readState_mid_instruction :
    (readState (microfetch threeMicroOps)).ir = 0x4805 ∧ (readState (microfetch threeMicroOps)).upc = 1 ∧
      (readState (microfetch threeMicroOps)).ctrl.toNat = 9 := by decide

/-- K5: BREQ not taken, then a stop at JMP. -/
theorem test_blockstep_K5 :
    (match blockstep 100 { fetched 0x7806 with rom := [(5, 0x9802)], pc := 5 } with
      | .done t b => b && t.pc == 6 && t.ir == 0x9802
      | .faulted _ => false
      | .refused _ => false
      | .hung => false) = true := by decide

/-- Q1. -/
theorem test_softReset_keeps_registers :
    readReg (softReset (withRegs 0 8 1 3)) 0 = 8 ∧ (softReset (withRegs 0 8 1 3)).pc = 1 := by decide

/-- Q3. -/
theorem test_hardReset_clears :
    hardReset false { fetched 0x4805 with halted := true, sp := 0, ac := 9 } = State.reset := rfl

/-- F2. -/
theorem test_load_oversize : (load (List.replicate 257 0x4800#16) State.reset).1 = .oversize := by
  rw [load_of_oversize (by rw [List.length_replicate]; decide)]

/-- F1. -/
theorem test_load_unknown : (load [0x0000#16] State.reset).1 = .unknownOpcode := by
  rw [load_of_unassigned (by decide) ⟨_, .head _, rfl⟩]

/-! ### Witnesses of the obligations' hypotheses: the codec -/

theorem test_witness_reset_params_wf : resetParams.wf = true := by decide

theorem test_witness_EncodedFieldsDecode : (7#5).toNat ≤ 7 ∧ ¬ (8#5).toNat ≤ 7 := by decide

theorem test_witness_DecodedFieldsEncode :
    decode resetParams 0x2F07 = .ok (.add 7 7) ∧ decode resetParams 0x7F06 = .ok (.breq 6) ∧
      decode resetParams 0x6807 = .ok (.rol 0) := by decide

theorem test_witness_OpcodeAloneSelects :
    resetParams.wf = true ∧ opField 0x2805 = opField 0x2F1F ∧ decode resetParams 0x2805 = .ok (.add 0 5) ∧
      decode resetParams 0x2F1F = .ok (.add 7 31) ∧ resetParams.opc .add = resetParams.opc .add := by decide

theorem test_witness_IgnoredFieldsDoNotMatter :
    (catalog resetParams (opField 0x7F06) = some .breq ∧ opField 0x7806 = opField 0x7F06 ∧
      Mnemonic.breq.format = .c ∧ bField 0x7806 = bField 0x7F06) ∧
    (catalog resetParams (opField 0x6807) = some .rol ∧ opField 0x6800 = opField 0x6807 ∧
      Mnemonic.rol.format = .d ∧ aField 0x6800 = aField 0x6807) ∧
    (catalog resetParams (opField 0xB0FF) = some .stop ∧ opField 0xB700 = opField 0xB0FF ∧
      Mnemonic.stop.format = .e) := by decide

theorem test_witness_DecodeOfEncode :
    resetParams.wf = true ∧ (Instr.st 7 7).wellFormed = true ∧ decode resetParams (encode resetParams (.st 7 7)) =
      .ok (.st 7 7) := by decide

theorem test_witness_RawWordDirective :
    rawWord resetParams 0x28 5 = some 0x2805 ∧ rawWord resetParams 0xFF 0xFF = none := by decide

theorem test_witness_TextOperandsFillTheSlots :
    Mnemonic.ld ∈ [Mnemonic.add, .sub, .cp, .mov, .ld] ∧
    Mnemonic.lds ∈ [Mnemonic.addi, .subi, .cpi, .ldi, .lds] ∧
    (Mnemonic.call, resetParams.cfields.call) ∈
      [(Mnemonic.breq, resetParams.cfields.breq), (.brlo, resetParams.cfields.brlo),
        (.brov, resetParams.cfields.brov), (.brlt, resetParams.cfields.brlt), (.jmp, resetParams.cfields.jmp),
        (.call, resetParams.cfields.call)] ∧
    Mnemonic.ror ∈ [Mnemonic.rol, .ror] ∧ Mnemonic.stop ∈ [Mnemonic.ret, .stop] := by simp

theorem test_witness_opcodes_of_formatB_and_C :
    opField 0x5102 = resetParams.opc .addi ∧ opField 0x2110 = resetParams.opc .sts ∧
      opField 0x9F02 = resetParams.opc .jmp ∧ opField 0x7F06 = resetParams.opc .breq ∧
      opField 0x8106 = resetParams.opc .brlo ∧ opField 0x8A06 = resetParams.opc .brov ∧
      opField 0x9306 = resetParams.opc .brlt := by decide

/-! ### Witnesses: stepping -/

theorem test_witness_fetch_wraps : ({ State.reset with pc := 255#8 } : State).pc = 255#8 := rfl

theorem test_witness_ready (w : Nat) : Ready (fetched w) := ⟨rfl, rfl, rfl⟩

theorem test_witness_StepRuns_next :
    decode (fetched 0x4805).params (fetched 0x4805).ir = .ok (.ldi 0 5) ∧
      ∃ t, exec (.ldi 0 5) (fetched 0x4805) = .next t ∧ Instr.ldi 0 5 ≠ .stop :=
  ⟨rfl, _, rfl, nofun⟩

theorem test_witness_StepRuns_stop :
    decode (fetched 0xB000).params (fetched 0xB000).ir = .ok .stop ∧ ∃ t, exec .stop (fetched 0xB000) = .next t :=
  ⟨rfl, _, rfl⟩

theorem test_witness_StepRuns_fault :
    decode (fetched 0x2808).params (fetched 0x2808).ir = .ok (.add 0 8) ∧
      ∃ f, exec (.add 0 8) (fetched 0x2808) = .fault f := ⟨rfl, _, rfl⟩

theorem test_witness_StepRuns_unassigned :
    catalog (fetched 0).params (opField (fetched 0).ir) = none ∧ ¬ Ready { State.reset with halted := true } :=
  ⟨rfl, fun h => nomatch h.running⟩

theorem test_witness_Microstep :
    threeMicroOps.halted = false ∧ threeMicroOps.fault = none ∧
      decode threeMicroOps.params threeMicroOps.ir = .ok (.ldi 0 5) ∧
      threeMicroOps.upc < threeMicroOps.params.microcycles .ldi - 1 ∧
      ¬ 2 < threeMicroOps.params.microcycles .ldi - 1 := by decide

theorem test_witness_StepEqualsItsMicrosteps :
    threeMicroOps.upc = 0 ∧ catalog threeMicroOps.params (opField threeMicroOps.ir) = some .ldi ∧
      threeMicroOps.params.microcycles .ldi = 3 := by decide

theorem test_witness_Fullstep :
    upcInRange { threeMicroOps with upc := 1 } ∧
      ∃ t, step { { threeMicroOps with upc := 1 } with upc := 0 } = .next t :=
  ⟨(by decide : (1 : Nat) < 3), _, rfl⟩

theorem test_witness_PreconditionsAreRefused :
    ({ State.reset with halted := true } : State).halted = true ∧
    (({ State.reset with fault := some (.unknownOpcode 1 0) } : State).halted = false ∧
      ({ State.reset with fault := some (.unknownOpcode 1 0) } : State).fault ≠ none) ∧
    { threeMicroOps with upc := 1 }.halted = false ∧ { threeMicroOps with upc := 1 }.fault = none ∧
      { threeMicroOps with upc := 1 }.upc ≠ 0 := by decide

theorem test_witness_UnknownOpcodeFaultIsPrecise :
    Ready State.reset ∧ catalog State.reset.params (opField State.reset.ir) = none := ⟨⟨rfl, rfl, rfl⟩, rfl⟩

/-- A state about to run `LDI R0, 5`, with `JMP 2` after it. -/
def beforeJump : State := { fetched 0x4805 with rom := [(1, 0x9802)] }

theorem test_witness_BlockstepStops :
    ∃ t, fullstep beforeJump = .done t () ∧ catalog t.params (opField t.ir) = some .jmp ∧
      isControlTransfer .jmp = true := ⟨_, rfl, rfl, rfl⟩

theorem test_witness_Blockstep_true : ∃ t, blockstep 3 beforeJump = .done t true := ⟨_, rfl⟩

theorem test_witness_Blockstep_false : ∃ t, blockstep 0 (fetched 0x4805) = .done t false := ⟨_, rfl⟩

/-- A blockstep that runs one step of its loop before it stops at the JMP. -/
theorem test_witness_Blockstep_loop :
    ∃ t, blockstep 3 { fetched 0x4805 with rom := [(1, 0x4900), (2, 0x9802)] } = .done t true ∧ t.pc = 3 :=
  ⟨_, rfl, rfl⟩

theorem test_witness_FormatA_at_a_boundary :
    (fetched 0x2808).halted = false ∧ (fetched 0x2808).fault = none ∧
      decode (fetched 0x2808).params (fetched 0x2808).ir = .ok (.add 0 8) ∧ (fetched 0x2808).upc = 0 ∧
      7 < (8#8).toNat := ⟨rfl, rfl, rfl, rfl, by decide⟩

theorem test_witness_FormatA_last_micro_op :
    decode threeMicroOps.params 0x2808 = .ok (.add 0 8) ∧ 2 + 1 = threeMicroOps.params.microcycles .add ∧
      1 < threeMicroOps.params.microcycles .add := by decide

theorem test_witness_Ctrl :
    catalog threeMicroOps.params (opField threeMicroOps.ir) = some .ldi ∧
      threeMicroOps.upc + 1 < threeMicroOps.params.microcycles .ldi ∧ threeMicroOps.upc = 0 ∧
      threeMicroOps.ctrl.toNat = 7 := by decide

/-! ### Witnesses: instructions -/

theorem test_witness_register_field : (7#8).toNat ≤ 7 ∧ 7 < (8#8).toNat := by decide

theorem test_witness_hooks_answer :
    State.reset.hooks.askRead = some (.notControlled, .stubs) ∧
    State.reset.hooks.askWrite = some (false, .stubs) ∧
    (withHooks [.byte 7] []).hooks.askRead = some (.byte 7, .installed [] []) ∧
    (withHooks [] [true]).hooks.askWrite = some (true, .installed [] []) := by decide

theorem test_witness_hooks_hang : (withHooks [] []).hooks.askRead = none ∧ (withHooks [] []).hooks.askWrite = none := by
  decide

theorem test_witness_stubs_and_canonical_ram :
    State.reset.hooks = .stubs ∧ Memory.wf (ramWrite State.reset 0xFF 1).ram = true := by decide

theorem test_witness_Branches (g : Addr) :
    (Instr.brlt g, Condition.lt) ∈
      [(Instr.breq g, Condition.eq), (.brlo g, .lo), (.brov g, .ov), (.brlt g, .lt)] := by simp

theorem test_witness_Stop : Ready (fetched 0xB000) ∧ decode (fetched 0xB000).params (fetched 0xB000).ir = .ok .stop :=
  ⟨⟨rfl, rfl, rfl⟩, rfl⟩

theorem test_witness_WellFormedInstructionsComplete :
    (Instr.ld 0 7).wellFormed = true ∧ (loadAddress State.reset (.ld 0 7) ≠ none → readReturns State.reset) ∧
      (storeAddress State.reset (.ld 0 7) ≠ none → writeReturns State.reset) :=
  ⟨rfl, fun _ => rfl, fun _ => rfl⟩

theorem test_witness_exec_next :
    (∃ t, exec (.ldi 0 5) State.reset = .next t) ∧ destReg (.ldi 0 5) ≠ some 1 ∧ writesFlags (.ldi 0 5) = false ∧
      writesPc (.ldi 0 5) = false ∧ writesSp (.ldi 0 5) = false ∧ storeAddress State.reset (.ldi 0 5) = none ∧
      loadAddress State.reset (.ldi 0 5) = none := ⟨⟨_, rfl⟩, by decide, rfl, rfl, rfl, rfl, rfl⟩

theorem test_witness_exec_store :
    (∃ t, exec (.call 9) State.reset = .next t) ∧ storeAddress State.reset (.call 9) = some 0xFF ∧
      (0#8 : Addr) ≠ 0xFF := ⟨⟨_, rfl⟩, rfl, by decide⟩

theorem test_witness_exec_load :
    (∃ t, exec .ret State.reset = .next t) ∧ loadAddress State.reset .ret = some 0 := ⟨⟨_, rfl⟩, rfl⟩

theorem test_witness_step_and_microstep_next :
    (∃ t, step (fetched 0x4805) = .next t) ∧ ∃ t, microstep threeMicroOps = .next t := ⟨⟨_, rfl⟩, _, rfl⟩

theorem test_witness_step_halts : ∃ t, step (fetched 0xB000) = .next t ∧ t.halted = true := ⟨_, rfl, rfl⟩

theorem test_witness_step_goes_on : ∃ t, step (fetched 0x4805) = .next t ∧ t.halted = false := ⟨_, rfl, rfl⟩

theorem test_witness_ScratchRegistersAreNeverRead :
    dropScratch { State.reset with ac := 1, mar := 2, mdr := 3 } = dropScratch State.reset ∧
      ∃ t, exec (.add 1 2) State.reset = .next t := ⟨rfl, _, rfl⟩

/-! ### Witnesses: invariants, reset and load -/

theorem test_witness_EngineInv : EngineInv threeMicroOps :=
  ⟨by decide, by decide, by decide, (by decide : (0 : Nat) < 3)⟩

theorem test_witness_load_ok : ∃ t, load [0x4805#16] State.reset = (.ok, t) := ⟨_, rfl⟩

theorem test_witness_Load_clauses :
    Memory.wf State.reset.rom = true ∧ 256 < (List.replicate 257 0#16).length ∧
    ([0x0000#16].length ≤ 256 ∧ ∃ w ∈ [0x0000#16], catalog State.reset.params (opField w) = none) ∧
    ([0x4805#16].length ≤ 256 ∧ ∀ w ∈ [0x4805#16], catalog State.reset.params (opField w) ≠ none) :=
  ⟨rfl, by rw [List.length_replicate]; decide, ⟨by decide, _, .head _, rfl⟩, by decide, all_hasEntry_iff.mp (by decide)⟩

theorem test_witness_load_256_words :
    (List.replicate 256 0x4800#16).length ≤ 256 ∧
      ∀ w ∈ List.replicate 256 0x4800#16, catalog State.reset.params (opField w) ≠ none :=
  ⟨by rw [List.length_replicate], fun w hw => by rw [List.eq_of_mem_replicate hw]; decide⟩

theorem test_witness_load_rejected : (load [0x0000#16] State.reset).1 ≠ .ok := by
  rw [load_of_unassigned (by decide) ⟨_, .head _, rfl⟩]
  nofun

theorem test_witness_Launch :
    [0xB000#16].length < 256 ∧ ∀ x ∈ [0x4805#16, 0xB000#16], catalog resetParams (opField x) ≠ none :=
  ⟨by decide, all_hasEntry_iff.mp (by decide)⟩

end Sys2Proof.Tests
end

/-! ## The state an instruction and a fetch leave (10_state.md)

Every instruction but STOP leaves `halted` and the micro-op counter alone: a lemma over the shared operations, then
the split by instruction. The two obligations of 10_state.md follow from it and from the fields of a fetch and of the
two resets. -/

namespace Sys2Proof.Proofs

open Sys2Proof.Machine Sys2Proof.Safety

variable {s t : State}

/-! ### What the shared operations leave of `upc` and `halted` -/

theorem loadByte_keepsRunning {d : RegIdx} {a : Addr} (h : loadByte s d a = .next t) : KeepsRunning s t := by
  obtain ⟨_, _, -, rfl⟩ := withMemRead_next h
  constructor <;> simp

theorem storeByte_keepsRunning {r : RegIdx} {a : Addr} (h : storeByte s r a = .next t) : KeepsRunning s t := by
  obtain ⟨_, _, -, rfl⟩ := withMemWrite_next h
  constructor <;> simp

theorem branchIf_keepsRunning (s : State) (c : Condition) (g : Addr) : KeepsRunning s (branchIf s c g) := by
  rw [branchIf_eq]
  constructor <;> simp

/-- No instruction but STOP writes `halted` or the micro-op counter (R33, R35). -/
theorem exec_keepsRunning {i : Instr} (hi : i ≠ .stop) (h : exec i s = .next t) : KeepsRunning s t := by
  cases i
  case stop => exact absurd rfl hi
  case add | sub | cp | mov =>
    obtain ⟨_, -, h⟩ := withRegOperand_next h
    cases h
    exact ⟨rfl, rfl⟩
  case addi | subi | cpi | rol | ror | ldi | jmp =>
    cases h
    exact ⟨rfl, rfl⟩
  case breq | brlo | brov | brlt =>
    cases h
    exact branchIf_keepsRunning ..
  case ld =>
    obtain ⟨_, -, h⟩ := withRegOperand_next h
    exact loadByte_keepsRunning h
  case lds => exact loadByte_keepsRunning h
  case st =>
    obtain ⟨_, -, h⟩ := withRegOperand_next h
    exact storeByte_keepsRunning h
  case sts => exact storeByte_keepsRunning h
  case call =>
    obtain ⟨_, _, -, rfl⟩ := withMemWrite_next h
    constructor <;> simp
  case ret =>
    obtain ⟨_, _, -, rfl⟩ := withMemRead_next h
    constructor <;> simp

/-! ### The obligations -/

/-- Settles O51: STOP sets `halted`, every other instruction keeps it, and both resets clear it. -/
theorem onlyStopSetsHaltedAndOnlyResetsClearIt : Obligations.OnlyStopSetsHaltedAndOnlyResetsClearIt := by
  refine ⟨fun i s t h => ?_, fun s => ⟨softReset_halted, hardReset_halted⟩⟩
  by_cases hi : i = .stop
  · subst hi
    rw [exec_stop] at h
    cases h
    simp
  · simp [(exec_keepsRunning hi h).halted, hi]

/-- Settles O12, from the fields of a fetch; the advance is an 8-bit sum. -/
theorem fetchLoadsAndAdvancesPc : Obligations.FetchLoadsAndAdvancesPc := by
  refine fun s => ⟨fetch_ir s, ?_, fun h => ?_, fetch_upc s⟩
  · rw [fetch_pc, BitVec.toNat_add]
    rfl
  · rw [fetch_pc, h]
    rfl

end Sys2Proof.Proofs


/-! ## The data-memory port (20_memory.md)

A call of the port whose hook answers: the byte or the store it ends with, and the state it leaves. That a store
through the port touches no field but RAM is a lemma of its own, by the hook's answer. -/

namespace Sys2Proof.Proofs

open Sys2Proof.Machine Sys2Proof.Safety

variable {s : State} {a : Addr} {v : Byte} {h : Hooks}

/-! ### The port when its hook answers -/

theorem memRead_of_ask {r : ReadAnswer} (e : s.hooks.askRead = some (r, h)) :
    memRead s a = some (readValue s a r, afterHook s h (.read a)) := by
  simp [memRead, e]

theorem memWrite_of_ask {handled : Bool} (e : s.hooks.askWrite = some (handled, h)) :
    memWrite s a v = some (storeUnlessHandled (afterHook s h (.write a v)) a v handled) := by
  simp [memWrite, e]

/-- A store through the port writes no field but RAM (R53). -/
theorem storeUnlessHandled_restoreRam (s : State) (a : Addr) (v : Byte) (handled : Bool) :
    { storeUnlessHandled s a v handled with ram := s.ram } = s := by
  cases handled
  · rfl
  · rfl

/-! ### The obligations -/

/-- Settles O30, from the port's read and the byte each answer of the hook stands for. -/
theorem memReadAsksTheHookOnce : Obligations.MemReadAsksTheHookOnce := by
  intro s a r h e
  refine ⟨readValue s a r, afterHook s h (.read a), memRead_of_ask e, ?_, ?_, rfl⟩
  · rintro rfl
    exact readValue_notControlled s a
  · rintro x rfl
    exact readValue_byte s a x

/-- Settles O31, from the port's write: RAM by `stored_of_ram`, the rest because only the hook call is left. -/
theorem memWriteAsksTheHookOnce : Obligations.MemWriteAsksTheHookOnce := by
  intro s a v handled h e
  exact ⟨_, memWrite_of_ask e, stored_of_ram (storeUnlessHandled_ram _ a v handled),
    storeUnlessHandled_restoreRam (afterHook s h (.write a v)) a v handled⟩

end Sys2Proof.Proofs


/-! ## The codec (30_encoding.md)

The encoder's terms, the decoder's verdict (which words are valid, and that the disassembler accepts exactly those)
and the catalog's entry of a decoded instruction. -/

namespace Sys2Proof.Proofs

variable {p : Params} {w : Word}

/-! ### The terms of the encoder -/

/-- A field that ends within the word loses no bit where the encoder widens it and shifts it into place. -/
theorem toNat_setWidth_shiftLeft {n k : Nat} (x : BitVec n) (h : n + k ≤ 16) :
    (x.setWidth 16 <<< k).toNat = x.toNat <<< k := by
  have hn : n ≤ 16 := by omega
  have hlt : x.toNat <<< k < 2 ^ 16 :=
    (Nat.shiftLeft_lt x.isLt).trans_le (Nat.pow_le_pow_right Nat.two_pos h)
  rw [BitVec.toNat_shiftLeft, BitVec.toNat_setWidth_of_le hn, Nat.mod_eq_of_lt hlt]

/-! ### The validity verdict and the disassembler -/

/-- R90: the opcode is assigned and, in format A, field B names a register. -/
theorem validWord_iff :
    validWord p w = true ↔ ∃ m, catalog p (opField w) = some m ∧ (m.format ≠ .a ∨ (bField w).toNat ≤ 7) := by
  unfold validWord
  cases catalog p (opField w) with
  | none => simp
  | some m => simp

/-- R91: the disassembler accepts exactly the valid words. -/
theorem disassemble_isSome : (disassemble p w).isSome = validWord p w := by
  unfold disassemble
  cases hc : catalog p (opField w) with
  | none => simp [decode_of_no_entry hc, validWord, hc]
  | some m =>
    rw [decode_of_catalog hc]
    cases validWord p w <;> rfl

/-! ### The catalog -/

/-- R87: the assigned opcodes are those of the 22 mnemonics. -/
theorem catalog_isSome_iff {op : Opcode} : (catalog p op).isSome = true ↔ ∃ m, p.opc m = op := by
  simp only [Option.isSome_iff_ne_none, ne_eq, catalog_eq_none, not_forall, not_not]

/-- R81: the descriptor of a decoded instruction is the catalog's entry of the word's opcode. -/
theorem catalog_of_decode {i : Instr} (h : decode p w = .ok i) : catalog p (opField w) = some i.mnemonic := by
  obtain ⟨m, hm, rfl⟩ := decode_eq_ok.mp h
  rw [hm, ofFields_mnemonic]

/-! ### The obligations -/

/-- Settles O1, from the fields' values and their widths. -/
theorem fieldsAreBitRangesOfTheWord : Obligations.FieldsAreBitRangesOfTheWord := fun w =>
  ⟨opField_toNat w, Nat.le_of_lt_succ (opField w).isLt, bField_toNat w, Nat.le_of_lt_succ (bField w).isLt⟩

/-- Settles O2: each mask covers its whole field and no term is shifted out of the word, so the terms agree. -/
theorem encoderCombinesMaskedSlots : Obligations.EncoderCombinesMaskedSlots := by
  intro op a b
  have hop : op.toNat &&& 0x1F = op.toNat := Nat.and_two_pow_sub_one_of_lt_two_pow op.isLt
  have ha : a.toNat &&& 0x1F = a.toNat := Nat.and_two_pow_sub_one_of_lt_two_pow a.isLt
  have hb : b.toNat &&& 0xFF = b.toNat := Nat.and_two_pow_sub_one_of_lt_two_pow b.isLt
  rw [hop, ha, hb, encodeFields, BitVec.toNat_or, BitVec.toNat_or, toNat_setWidth_shiftLeft op (by decide),
    toNat_setWidth_shiftLeft a (by decide), BitVec.toNat_setWidth_of_le (by decide)]

/-- Settles O5: the fields and the entry by the decoder's definition, then the verdict, the disassembler and the
catalog. -/
theorem decoderReturnsFieldsEntryAndVerdict : Obligations.DecoderReturnsFieldsEntryAndVerdict :=
  ⟨fun _ _ => ⟨rfl, rfl, rfl, rfl, validWord_iff, disassemble_isSome⟩,
    fun _ hp => ⟨fun _ => catalog_isSome_iff, catalog_opc hp⟩⟩

/-- Settles O6: a decoded instruction's mnemonic is the entry of its word's opcode. -/
theorem opcodeAloneSelects : Obligations.OpcodeAloneSelects := by
  refine fun p hp => ⟨fun w w' i i' e h h' => ?_, fun w i h => opc_of_catalog (catalog_of_decode h),
    fun m m' => opc_injective hp⟩
  have hm : some i.mnemonic = some i'.mnemonic := by
    rw [← catalog_of_decode h, e, catalog_of_decode h']
  exact Option.some.inj hm

end Sys2Proof.Proofs


/-! ## Arithmetic (41_arithmetic.md)

What the adder of R126 does, as a sum of naturals and as bits of its inputs and its value, for any carry in. Addition
and subtraction are the adder at a carry in of 0 and, on the complement of the subtrahend, of 1. -/

namespace Sys2Proof.Proofs

open Sys2Proof.Machine

variable (a b : Byte) (carryIn : Bool)

/-! ### The adder -/

/-- The 9-bit sum of R126, whose low byte is the adder's value and whose top bit is its carry. -/
def nineBitSum : BitVec 9 := a.setWidth 9 + b.setWidth 9 + (BitVec.ofBool carryIn).setWidth 9

/-- No carry is lost: the largest sum is 511. -/
theorem nineBitSum_toNat : (nineBitSum a b carryIn).toNat = a.toNat + b.toNat + carryIn.toNat := by
  have hc := carryIn.toNat_lt
  simp only [nineBitSum, BitVec.toNat_add, BitVec.toNat_setWidth, BitVec.toNat_ofBool]
  omega

theorem adder_value : (adder a b carryIn).value = (nineBitSum a b carryIn).setWidth 8 := rfl

theorem adder_c_eq_msb : (adder a b carryIn).flags.c = (nineBitSum a b carryIn).msb :=
  (BitVec.msb_eq_getLsbD_last _).symm

theorem adder_value_toNat :
    (adder a b carryIn).value.toNat = (a.toNat + b.toNat + carryIn.toNat) % 256 := by
  rw [adder_value, BitVec.toNat_setWidth, nineBitSum_toNat]

theorem adder_z : (adder a b carryIn).flags.z = true ↔ (adder a b carryIn).value = 0#8 := beq_iff_eq

theorem adder_n : (adder a b carryIn).flags.n = (adder a b carryIn).value.getLsbD 7 := rfl

theorem adder_c : (adder a b carryIn).flags.c = true ↔ 256 ≤ a.toNat + b.toNat + carryIn.toNat := by
  rw [adder_c_eq_msb, BitVec.msb_eq_true_iff_two_mul_ge, nineBitSum_toNat]
  omega

theorem adder_v :
    (adder a b carryIn).flags.v = true ↔
      a.getLsbD 7 = b.getLsbD 7 ∧ (adder a b carryIn).value.getLsbD 7 ≠ a.getLsbD 7 := by
  simp [adder]

/-! ### Subtraction -/

/-- Adding the complement and 1 is subtracting modulo 256. -/
theorem aluSub_value : (aluSub a b).value = a - b := by
  apply BitVec.eq_of_toNat_eq
  rw [aluSub, adder_value_toNat, BitVec.toNat_sub, BitVec.toNat_not, Bool.toNat_true]
  omega

/-- "No borrow": a + (255 - b) + 1 reaches 256 exactly when b is at most a. -/
theorem aluSub_c_iff_le : (aluSub a b).flags.c = true ↔ b.toNat ≤ a.toNat := by
  rw [aluSub, adder_c, BitVec.toNat_not, Bool.toNat_true]
  omega

/-- The complement's sign matches `a`'s exactly when `b`'s differs. -/
theorem aluSub_v :
    (aluSub a b).flags.v = true ↔
      a.getLsbD 7 ≠ b.getLsbD 7 ∧ (aluSub a b).value.getLsbD 7 ≠ a.getLsbD 7 := by
  have hsign : (~~~b).getLsbD 7 = !b.getLsbD 7 := by simp
  rw [aluSub, adder_v, hsign, Bool.eq_not]

/-! ### The obligation -/

/-- Settles O22: every clause is the adder's, at a carry in of 0 and of 1; subtraction adds its three readings of the
complement. -/
theorem aluFollowsTheNineBitSum : Obligations.AluFollowsTheNineBitSum := fun a b =>
  ⟨⟨adder_value_toNat a b false, adder_z a b false, adder_n a b false, adder_c a b false, adder_v a b false⟩,
    ⟨adder_value_toNat a (~~~b) true, aluSub_value a b, adder_z a (~~~b) true, adder_n a (~~~b) true,
      adder_c a (~~~b) true, aluSub_c_iff_le a b, aluSub_v a b⟩⟩

end Sys2Proof.Proofs


/-! ## Rotates (42_rotate.md)

The bits of `{C, x[A]}` and of the byte each rotate leaves; the 9-bit rotation of R140 is then bit by bit, the cases
being where the old carry, an inner bit and the new carry land. -/

namespace Sys2Proof.Proofs

open Sys2Proof.Machine

variable (a : Byte) (c : Bool)

/-! ### The bits of a rotate -/

theorem getElem_carry_append {i : Nat} (h : i < 1 + 8) :
    (BitVec.ofBool c ++ a)[i] = if _ : i < 8 then a[i] else c := by
  simp only [BitVec.getElem_append, BitVec.getElem_ofBool]

theorem rotateLeft_value_getElem {i : Nat} (h : i < 8) :
    (rotateLeft a c).value[i] = if i = 0 then c else a[i - 1] := by
  cases i with
  | zero => simp [rotateLeft]
  | succ i => simp [rotateLeft]

theorem rotateRight_value_getElem {i : Nat} (h : i < 8) :
    (rotateRight a c).value[i] = if _ : i < 7 then a[1 + i] else c := by
  by_cases h7 : i < 7
  · have hsucc : 1 + i < 8 := by omega
    simp [rotateRight, h7, BitVec.getLsbD_eq_getElem hsucc]
  · obtain rfl : i = 7 := by omega
    simp [rotateRight]

/-- R140 for ROL: the old carry enters at bit 0, bit 7 leaves into the carry, and every other bit moves up. -/
theorem rotateLeft_nineBits :
    BitVec.ofBool (rotateLeft a c).flags.c ++ (rotateLeft a c).value = (BitVec.ofBool c ++ a).rotateLeft 1 := by
  ext i hi
  rw [BitVec.getElem_rotateLeft]
  simp only [getElem_carry_append, rotateLeft_value_getElem]
  obtain rfl | ⟨h0, h8⟩ | rfl : i = 0 ∨ (0 < i ∧ i < 8) ∨ i = 8 := by omega
  · simp
  · have hpred : i - 1 < 8 := by omega
    simp [h8, h0.ne', hpred]
  · rfl

/-- R140 for ROR: the old carry enters at bit 7, bit 0 leaves into the carry, and every other bit moves down. -/
theorem rotateRight_nineBits :
    BitVec.ofBool (rotateRight a c).flags.c ++ (rotateRight a c).value = (BitVec.ofBool c ++ a).rotateRight 1 := by
  ext i hi
  rw [BitVec.getElem_rotateRight]
  simp only [getElem_carry_append, rotateRight_value_getElem]
  obtain h7 | rfl | rfl : i < 7 ∨ i = 7 ∨ i = 8 := by omega
  · have h8 : i < 8 := by omega
    have hsucc : 1 + i < 8 := by omega
    simp [h7, h8, hsucc]
  · simp
  · rfl

/-! ### The state a rotate leaves -/

theorem finishRotate_flags (s : State) (d : RegIdx) (r : AluResult) : (finishRotate s d r).flags = r.flags := rfl

theorem readReg_finishRotate (s : State) (d : RegIdx) (r : AluResult) : readReg (finishRotate s d r) d = r.value :=
  readReg_writeReg_same ..

/-! ### The obligation -/

/-- Settles O27: both rotates complete with the flags and the value of the 9-bit rotation. -/
theorem rotateIsNineBitsThroughCarry : Obligations.RotateIsNineBitsThroughCarry := by
  intro s d
  refine ⟨⟨_, exec_rol d, ?_⟩, ⟨_, exec_ror d, ?_⟩⟩
  · rw [finishRotate_flags, readReg_finishRotate, rotateLeft_nineBits]
  · rw [finishRotate_flags, readReg_finishRotate, rotateRight_nineBits]

end Sys2Proof.Proofs


/-! ## Data transfer (43_data_transfer.md)

What a store through the port leaves, said of the operation that ST and STS share: the cell, the scratch registers and
the hook call where the hook answers, the frame in every state it goes on to. Then two facts of the codec about one
instruction: the word its opcode selects, and the word its line of text becomes. -/

namespace Sys2Proof.Proofs

open Sys2Proof.Machine Sys2Proof.Safety

/-! ### A store through the port -/

section Store

variable {s t : State} {x : RegIdx} {a : Addr}

theorem storeByte_keepsControl (h : storeByte s x a = .next t) : KeepsControl s t := by
  have hrun := storeByte_keepsRunning h
  obtain ⟨_, _, -, rfl⟩ := withMemWrite_next h
  exact ⟨by simp, by simp, hrun⟩

theorem storeByte_keepsFixed (h : storeByte s x a = .next t) : KeepsFixed s t := by
  obtain ⟨_, _, -, rfl⟩ := withMemWrite_next h
  constructor <;> simp

/-- R154, R156 and R53: a store whose hook answers completes with the byte through `mdr` to the cell, one hook call, and
everything but `ac` as before. -/
theorem storeByte_completes {handled : Bool} {h : Hooks} (e : s.hooks.askWrite = some (handled, h)) :
    ∃ t, storeByte s x a = .next t ∧ Stored s t a (readReg s x) handled ∧ t.mar = a ∧ t.mdr = readReg s x ∧
      t.hooks = h ∧ t.hookCalls = s.hookCalls ++ [.write a (readReg s x)] ∧
      t.regs = s.regs ∧ t.flags = s.flags ∧ KeepsControl s t ∧ KeepsFixed s t := by
  have hstore := storeByte_of_ask (x := x) (a := a) e
  refine ⟨_, hstore, stored_of_ram ?_, ?_, ?_, ?_, ?_, ?_, ?_, storeByte_keepsControl hstore,
    storeByte_keepsFixed hstore⟩ <;> simp

end Store

/-! ### One instruction's word -/

/-- In an admissible assignment a word with the opcode of `m` decodes to `m` with the word's fields (R81). -/
theorem decode_of_opc {p : Params} {w : Word} {m : Mnemonic} (hp : p.wf = true) (hw : opField w = p.opc m) :
    decode p w = .ok (Instr.ofFields m (aField w) (bField w)) :=
  decode_of_catalog (by rw [hw, catalog_opc hp])

/-- R99: a line whose second slot is known is one word, without a warning. -/
theorem assemble_plain_known {p : Params} {i : AsmInstr} {op : Opcode} {a : BitVec 5} {b : Byte}
    (h : i.sentence p = some ⟨op, a, .known b⟩) :
    assemble p [.plain i] = .ok ([encodeFields op a b], 0) := by
  simp [assemble, readLines, readLine, h, addSentence, encodeSentences, resolve]

/-! ### The obligation -/

/-- Settles O36: STS is a store to the address in field B; its word and its text by the codec's two facts. -/
theorem storeDirectWritesThePort : Obligations.StoreDirectWritesThePort := by
  refine ⟨fun s x b handled h e => ?_, fun s x b e => ?_, fun p w hp hw => decode_of_opc hp hw,
    fun p x b => assemble_plain_known rfl⟩
  · rw [exec_sts]
    exact storeByte_completes e
  · rw [exec_sts]
    exact storeByte_of_hung e

end Sys2Proof.Proofs


/-! ## Instructions and their words (30_encoding.md)

The word of an instruction decodes to it: its fields are its slots (`Laws.Fields`), and an instruction is the one its
slots stand for. Then which fields each format ignores, the slots of a wide slot A, the raw-word directive and the
operand table. -/

namespace Sys2Proof.Proofs

open Sys2Proof.Machine

variable {p : Params}

/-! ### Decode of encode -/

/-- Under an admissible assignment the word of an instruction has the instruction's own catalog entry (R87). -/
theorem catalog_encode (hp : p.wf = true) (i : Instr) : catalog p (opField (encode p i)) = some i.mnemonic := by
  rw [(Laws.Fields.of_slots i p).1, catalog_opc hp]

theorem decode_encode (hp : p.wf = true) (i : Instr) : decode p (encode p i) = .ok i := by
  obtain ⟨-, ha, hb⟩ := Laws.Fields.of_slots i p
  rw [decode_of_catalog (catalog_encode hp i), ha, hb, ofFields_slots]

/-- The verdict on a decoded word is the operand part of its instruction (R90). -/
theorem validWord_of_decode {w : Word} {i : Instr} (h : decode p w = .ok i) : validWord p w = i.wellFormed := by
  obtain ⟨m, hm, rfl⟩ := decode_eq_ok.mp h
  rw [validWord, hm, wellFormed_ofFields]

/-- Settles O8: decode of encode, the verdict on a decoded word, and the disassembler, which is both. -/
theorem decodeOfEncodeIsTheInstruction : Obligations.DecodeOfEncodeIsTheInstruction := by
  intro p i hp
  have hd := decode_encode hp i
  have hv := validWord_of_decode hd
  refine ⟨hd, hv, fun hw => ?_⟩
  simp [disassemble, hd, hv, hw]

/-! ### The fields of an encoded word -/

/-- Settles O3: the three fields of an encoded word; a slot A of at most 7 has no bit above its low three. -/
theorem encodedFieldsDecode : Obligations.EncodedFieldsDecode := by
  intro op a b
  refine ⟨opField_encodeFields op a b, aField_encodeFields op a b, bField_encodeFields op a b, fun ha => ⟨?_, ?_⟩⟩
  · have hhigh : a >>> 3 = 0#5 := by bv_omega
    rw [opField_encodeFields, hhigh, BitVec.or_zero]
  · rw [aField_encodeFields, BitVec.toNat_setWidth]
    omega

/-- R73: the encoder undoes the split of a word into its fields. -/
theorem encodeFields_fields (w : Word) : encodeFields (opField w) ((aField w).setWidth 5) (bField w) = w := by
  ext i hi
  interval_cases i <;> simp [encodeFields, opField, aField, bField]

/-- Slot A of a decoded instruction is field A in the formats that use it. -/
theorem slotA_ofFields {m : Mnemonic} (hc : m.format ≠ .c) (he : m.format ≠ .e) (a : RegIdx) (b : Byte) :
    slotA p (Instr.ofFields m a b) = a := by
  cases m
  case jmp | breq | brlo | brov | brlt | call => exact absurd rfl hc
  case ret | stop => exact absurd rfl he
  all_goals rfl

/-- Slot B of a decoded instruction is field B in the formats that use it. -/
theorem slotB_ofFields {m : Mnemonic} (hd : m.format ≠ .d) (he : m.format ≠ .e) (a : RegIdx) (b : Byte) :
    slotB (Instr.ofFields m a b) = b := by
  cases m
  case rol | ror => exact absurd rfl hd
  case ret | stop => exact absurd rfl he
  all_goals rfl

/-- Settles O4: the fields of an instruction's word are its slots, which are the decoded word's fields in the formats
that use them. -/
theorem decodedFieldsEncode : Obligations.DecodedFieldsEncode := by
  refine ⟨encodeFields_fields, fun p w i h => ?_⟩
  obtain ⟨hop, ha, hb⟩ := Laws.Fields.of_slots i p
  obtain ⟨m, hm, rfl⟩ := decode_eq_ok.mp h
  simp only [ofFields_mnemonic] at hop ⊢
  refine ⟨by rw [hop, opc_of_catalog hm], fun hc he => ?_, fun hd he => ?_⟩
  · rw [ha, slotA_ofFields hc he]
  · rw [hb, slotB_ofFields hd he]

/-! ### Ignored fields -/

/-- Format C drops field A (R76). -/
theorem ofFields_formatC {m : Mnemonic} (h : m.format = .c) (a a' : RegIdx) (b : Byte) :
    Instr.ofFields m a b = Instr.ofFields m a' b := by
  cases m <;> cases h <;> rfl

/-- Format D drops field B (R77). -/
theorem ofFields_formatD {m : Mnemonic} (h : m.format = .d) (a : RegIdx) (b b' : Byte) :
    Instr.ofFields m a b = Instr.ofFields m a b' := by
  cases m <;> cases h <;> rfl

/-- Format E drops both fields (R78). -/
theorem ofFields_formatE {m : Mnemonic} (h : m.format = .e) (a a' : RegIdx) (b b' : Byte) :
    Instr.ofFields m a b = Instr.ofFields m a' b' := by
  cases m <;> cases h <;> rfl

/-- Settles O7: both words decode by the same entry, and the format drops the field in which they differ. -/
theorem ignoredFieldsDoNotMatter : Obligations.IgnoredFieldsDoNotMatter := by
  intro p w w' m hm hop
  have hm' : catalog p (opField w') = some m := by rw [hop, hm]
  rw [decode_of_catalog hm, decode_of_catalog hm']
  refine ⟨fun hf hb => ?_, fun hf ha => ?_, fun hf => ?_⟩
  · rw [hb, ofFields_formatC hf]
  · rw [ha, ofFields_formatD hf]
  · rw [ofFields_formatE hf]

/-! ### The raw-word directive -/

theorem opField_wordOfBytes (msb lsb : Byte) : opField (wordOfBytes msb lsb) = msb.extractLsb' 3 5 := by
  ext i hi
  interval_cases i <;> simp [opField, wordOfBytes]

theorem wordOfBytes_toNat (msb lsb : Byte) : (wordOfBytes msb lsb).toNat = msb.toNat * 256 + lsb.toNat := by
  rw [wordOfBytes, BitVec.toNat_or, toNat_setWidth_shiftLeft msb (by decide),
    BitVec.toNat_setWidth_of_le (by decide), ← Nat.shiftLeft_add_eq_or_of_lt lsb.isLt, Nat.shiftLeft_eq]

/-- Slot A as `MSB and 0x1F`: its two high bits fall on the opcode's two low ones, which they equal (R93). -/
theorem encodeFields_wide (msb lsb : Byte) :
    encodeFields (msb.extractLsb' 3 5) (msb.extractLsb' 0 5) lsb = wordOfBytes msb lsb := by
  ext i hi
  interval_cases i <;> simp [encodeFields, wordOfBytes]

/-- Slot A as `MSB and 0x07` (R93). -/
theorem encodeFields_narrow (msb lsb : Byte) :
    encodeFields (msb.extractLsb' 3 5) ((msb.extractLsb' 0 3).setWidth 5) lsb = wordOfBytes msb lsb := by
  ext i hi
  interval_cases i <;> simp [encodeFields, wordOfBytes]

/-- The directive looks the opcode `MSB[7:3]` up (R88, R93). -/
theorem rawWord_of_entry {msb lsb : Byte} {m : Mnemonic} (h : catalog p (msb.extractLsb' 3 5) = some m) :
    rawWord p msb lsb = some (wordOfBytes msb lsb) := by
  simp [rawWord, opField_wordOfBytes, h]

theorem rawWord_of_no_entry {msb lsb : Byte} (h : catalog p (msb.extractLsb' 3 5) = none) :
    rawWord p msb lsb = none := by
  simp [rawWord, opField_wordOfBytes, h]

/-- Settles O9, by whether the opcode has an entry. -/
theorem rawWordDirective : Obligations.RawWordDirective := by
  intro p msb lsb
  cases h : catalog p (msb.extractLsb' 3 5) with
  | none => simp [rawWord_of_no_entry h]
  | some m =>
    simp only [rawWord_of_entry h, reduceCtorEq, iff_self, and_true]
    rintro _ ⟨⟩
    exact ⟨wordOfBytes_toNat msb lsb, encodeFields_wide msb lsb, encodeFields_narrow msb lsb⟩

/-! ### Text and written-out words -/

/-- Settles O10: each line is one sentence with its second slot known; the mnemonics of a row share the row's form. -/
theorem textOperandsFillTheSlots : Obligations.TextOperandsFillTheSlots := by
  intro p x y v m
  refine ⟨fun hm => ?_, assemble_plain_known rfl, fun hm => ?_, assemble_plain_known rfl, fun f hf => ?_,
    fun hm => ?_, fun hm => ?_⟩
  · fin_cases hm <;> exact assemble_plain_known rfl
  · fin_cases hm <;> exact assemble_plain_known rfl
  · simp only [List.mem_cons, Prod.mk.injEq, List.not_mem_nil, or_false] at hf
    obtain ⟨rfl, rfl⟩ | ⟨rfl, rfl⟩ | ⟨rfl, rfl⟩ | ⟨rfl, rfl⟩ | ⟨rfl, rfl⟩ | ⟨rfl, rfl⟩ := hf <;>
      exact assemble_plain_known rfl
  · fin_cases hm <;> exact assemble_plain_known rfl
  · fin_cases hm <;> exact assemble_plain_known rfl

/-- Settles O11, by evaluating the decoder on the nine words. -/
theorem writtenOutWordsDecode : Obligations.WrittenOutWordsDecode := by
  unfold Obligations.WrittenOutWordsDecode
  decide

end Sys2Proof.Proofs


/-! ## What an instruction that completes did

`Effect` lists the ten ways an instruction ends, over the shared operations of the model, each with what the tables of
Safety say of the instruction. `exec_effect` is the one split of the dispatch; every frame below is a split by effect.
-/

namespace Sys2Proof.Proofs

open Sys2Proof.Machine Sys2Proof.Safety

variable {s t : State} {i : Instr}

/-! ### Effects -/

/-- The instruction neither stores nor loads. -/
structure NoPort (s : State) (i : Instr) : Prop where
  store : storeAddress s i = none
  load : loadAddress s i = none

/-- What an instruction does to a state from which it completes. -/
inductive Effect (s : State) : Instr → State → Prop
  | arith {i : Instr} {d : RegIdx} {r : AluResult} (hd : destReg i = some d) (hf : writesFlags i = true)
      (hp : NoPort s i) : Effect s i (finishArith s d r)
  | compare {i : Instr} {r : AluResult} (hf : writesFlags i = true) (hp : NoPort s i) :
      Effect s i (finishCompare s r)
  | rotate {i : Instr} {d : RegIdx} {r : AluResult} (hd : destReg i = some d) (hf : writesFlags i = true)
      (hp : NoPort s i) : Effect s i (finishRotate s d r)
  | move {i : Instr} {d : RegIdx} {v : Byte} (hd : destReg i = some d) (hp : NoPort s i) :
      Effect s i (writeReg (scratchDrawn s) d v)
  | load {i : Instr} {d : RegIdx} {a : Addr} {v : Byte} {h : Hooks} (hd : destReg i = some d)
      (hl : loadAddress s i = some a) (hs : storeAddress s i = none) :
      Effect s i (writeReg (scratchAfterMove (afterHook s h (.read a)) a v) d v)
  | store {i : Instr} {a : Addr} {v : Byte} {handled : Bool} {h : Hooks} (hs : storeAddress s i = some a)
      (hl : loadAddress s i = none) :
      Effect s i (scratchAfterMove (storeUnlessHandled (afterHook s h (.write a v)) a v handled) a v)
  | jump {i : Instr} {g : Addr} (hpc : writesPc i = true) (hp : NoPort s i) :
      Effect s i (writePc (scratchDrawn s) g)
  | call {g : Addr} {handled : Bool} {h : Hooks} :
      Effect s (.call g) (writePc (writeSp (scratchDrawn
        (storeUnlessHandled (afterHook s h (.write s.sp s.pc)) s.sp s.pc handled)) (s.sp - 1)) g)
  | ret {v : Byte} {h : Hooks} :
      Effect s .ret (writePc (writeSp (scratchDrawn (afterHook s h (.read (s.sp + 1)))) (s.sp + 1)) v)
  | stop : Effect s .stop { scratchDrawn s with halted := true, upc := 0 }

theorem effect_branchIf {c : Condition} {g : Addr} (hpc : writesPc i = true) (hp : NoPort s i) :
    Effect s i (branchIf s c g) := by
  rw [branchIf_eq]
  exact .jump hpc hp

theorem effect_loadByte {d : RegIdx} {a : Addr} (hd : destReg i = some d) (hl : loadAddress s i = some a)
    (hs : storeAddress s i = none) (h : loadByte s d a = .next t) : Effect s i t := by
  obtain ⟨_, _, -, rfl⟩ := withMemRead_next h
  exact .load hd hl hs

theorem effect_storeByte {x : RegIdx} {a : Addr} (hs : storeAddress s i = some a) (hl : loadAddress s i = none)
    (h : storeByte s x a = .next t) : Effect s i t := by
  obtain ⟨_, _, -, rfl⟩ := withMemWrite_next h
  exact .store hs hl

/-- Every instruction that completes has one of the ten effects. -/
theorem exec_effect (h : exec i s = .next t) : Effect s i t := by
  cases i
  case add | sub =>
    obtain ⟨_, -, h⟩ := withRegOperand_next h
    cases h
    exact .arith rfl rfl ⟨rfl, rfl⟩
  case addi | subi =>
    cases h
    exact .arith rfl rfl ⟨rfl, rfl⟩
  case cp =>
    obtain ⟨_, -, h⟩ := withRegOperand_next h
    cases h
    exact .compare rfl ⟨rfl, rfl⟩
  case cpi =>
    cases h
    exact .compare rfl ⟨rfl, rfl⟩
  case rol | ror =>
    cases h
    exact .rotate rfl rfl ⟨rfl, rfl⟩
  case mov =>
    obtain ⟨_, -, h⟩ := withRegOperand_next h
    cases h
    exact .move rfl ⟨rfl, rfl⟩
  case ldi =>
    cases h
    exact .move rfl ⟨rfl, rfl⟩
  case ld =>
    obtain ⟨_, hr, h⟩ := withRegOperand_next h
    exact effect_loadByte rfl (by simp [loadAddress, hr]) rfl h
  case lds => exact effect_loadByte rfl rfl rfl h
  case st =>
    obtain ⟨_, hr, h⟩ := withRegOperand_next h
    exact effect_storeByte (by simp [storeAddress, hr]) rfl h
  case sts => exact effect_storeByte rfl rfl h
  case jmp =>
    cases h
    exact .jump rfl ⟨rfl, rfl⟩
  case breq | brlo | brov | brlt =>
    cases h
    exact effect_branchIf rfl ⟨rfl, rfl⟩
  case call =>
    obtain ⟨_, _, -, rfl⟩ := withMemWrite_next h
    exact .call
  case ret =>
    obtain ⟨_, _, -, rfl⟩ := withMemRead_next h
    exact .ret
  case stop =>
    cases h
    exact .stop

/-! ### Frames -/

/-- A register that is not the destination is not written. -/
theorem readReg_writeReg_of_dest {u : State} {d q : RegIdx} (v : Byte) (hu : u.regs = s.regs)
    (hd : destReg i = some d) (hq : destReg i ≠ some q) : readReg (writeReg u d v) q = readReg s q := by
  rw [readReg_writeReg_ne u v fun e => hq (by rw [hd, e]), readReg_congr hu]

/-- No instruction writes the fetched word, ROM, the marks or the parameters (R32, R36, R45). -/
theorem exec_keepsFixed (h : exec i s = .next t) : KeepsFixed s t := by
  cases exec_effect h with
  | arith | compare | rotate | move | load | jump | ret | stop => exact ⟨rfl, rfl, rfl, rfl, rfl⟩
  | store | call => constructor <;> simp

/-- R22: an instruction writes no general register but its destination. -/
theorem exec_keepsOtherRegs (h : exec i s = .next t) {q : RegIdx} (hq : destReg i ≠ some q) :
    readReg t q = readReg s q := by
  cases exec_effect h with
  | arith hd | rotate hd | move hd | load hd => exact readReg_writeReg_of_dest _ rfl hd hq
  | compare | jump | ret | stop => rfl
  | store | call => exact readReg_congr (by simp) q

/-- R29: only arithmetic and the rotates write the flags. -/
theorem exec_keepsFlags (h : exec i s = .next t) (hi : writesFlags i = false) : t.flags = s.flags := by
  cases exec_effect h with
  | arith _ hf | compare hf | rotate _ hf => simp [hi] at hf
  | move | load | jump | ret | stop => rfl
  | store | call => simp

/-- R24: only jumps, branches, CALL and RET write `pc`. -/
theorem exec_keepsPc (h : exec i s = .next t) (hi : writesPc i = false) : t.pc = s.pc := by
  cases exec_effect h with
  | arith | compare | rotate | move | load | stop => rfl
  | store => simp
  | jump hpc => simp [hi] at hpc
  | call | ret => cases hi

/-- R26: only CALL and RET write `sp`. -/
theorem exec_keepsSp (h : exec i s = .next t) (hi : writesSp i = false) : t.sp = s.sp := by
  cases exec_effect h with
  | arith | compare | rotate | move | load | jump | stop => rfl
  | store => simp
  | call | ret => cases hi

/-- Only ST, STS and CALL write RAM. -/
theorem exec_keepsRam (h : exec i s = .next t) (hi : storeAddress s i = none) : t.ram = s.ram := by
  cases exec_effect h with
  | arith | compare | rotate | move | load | jump | ret | stop => rfl
  | store hs => simp [hi] at hs
  | call => cases hi

/-- An instruction that stores writes no RAM cell but the one it stores to. -/
theorem exec_keepsOtherCells (h : exec i s = .next t) {a b : Addr} (hi : storeAddress s i = some a) (hb : b ≠ a) :
    ramRead t b = ramRead s b := by
  cases exec_effect h with
  | arith _ _ hp | compare _ hp | rotate _ _ hp | move _ hp | jump _ hp => simp [hp.store] at hi
  | load _ _ hs => simp [hs] at hi
  | @store _ c v handled _ hs =>
    obtain rfl : c = a := by simpa [hs] using hi
    exact (stored_of_ram (v := v) (handled := handled) (by simp)).others b hb
  | @call _ handled =>
    cases hi
    exact (stored_of_ram (v := s.pc) (handled := handled) (by simp [pushAddress])).others b hb
  | ret | stop => cases hi

/-- Every memory an instruction leaves is in canonical form if RAM was (R46). -/
theorem exec_wf_ram (h : exec i s = .next t) (hm : Memory.wf s.ram = true) : Memory.wf t.ram = true := by
  cases exec_effect h with
  | arith | compare | rotate | move | load | jump | ret | stop => exact hm
  | store | call => exact wf_storeUnlessHandled (s := afterHook ..) hm

/-- An instruction that neither stores nor loads calls no hook. -/
theorem exec_keepsHooks (h : exec i s = .next t) (hi : NoPort s i) : t.hooks = s.hooks ∧ t.hookCalls = s.hookCalls := by
  cases exec_effect h with
  | arith | compare | rotate | move | jump | stop => exact ⟨rfl, rfl⟩
  | load _ hl => simp [hi.load] at hl
  | store hs => simp [hi.store] at hs
  | call => cases hi.store
  | ret => cases hi.load

/-- An instruction that loads calls the read hook once, for its address. -/
theorem exec_load_hookCalls (h : exec i s = .next t) {a : Addr} (hi : loadAddress s i = some a) :
    t.hookCalls = s.hookCalls ++ [.read a] := by
  cases exec_effect h with
  | arith _ _ hp | compare _ hp | rotate _ _ hp | move _ hp | jump _ hp => simp [hp.load] at hi
  | load _ hl =>
    rw [hl] at hi
    cases hi
    rfl
  | store _ hl => simp [hl] at hi
  | call | stop => cases hi
  | ret =>
    cases hi
    rfl

/-- An instruction that stores calls the write hook once, for its address. -/
theorem exec_store_hookCalls (h : exec i s = .next t) {a : Addr} (hi : storeAddress s i = some a) :
    ∃ v, t.hookCalls = s.hookCalls ++ [.write a v] := by
  cases exec_effect h with
  | arith _ _ hp | compare _ hp | rotate _ _ hp | move _ hp | jump _ hp => simp [hp.store] at hi
  | load _ _ hs => simp [hs] at hi
  | @store _ _ v _ _ hs =>
    rw [hs] at hi
    cases hi
    exact ⟨v, by simp⟩
  | call =>
    cases hi
    exact ⟨s.pc, by simp [pushAddress]⟩
  | ret | stop => cases hi

/-! ### The obligations -/

/-- Settles O49, by the four frames of the tables. -/
theorem registersChangeOnlyWhereStated : Obligations.RegistersChangeOnlyWhereStated := fun _ _ _ h =>
  ⟨fun _ => exec_keepsOtherRegs h, exec_keepsFlags h, exec_keepsPc h, exec_keepsSp h⟩

/-- Settles O50, by the frames of RAM and of the hook calls. -/
theorem onlyTheStoredCellChanges : Obligations.OnlyTheStoredCellChanges := fun _ _ _ h =>
  ⟨exec_keepsRam h, fun _ ha _ => exec_keepsOtherCells h ha, fun hs hl => exec_keepsHooks h ⟨hs, hl⟩,
    fun _ => exec_load_hookCalls h, fun _ => exec_store_hookCalls h⟩

end Sys2Proof.Proofs


/-! ## What a step leaves, and the engine's invariant (40_sequencer.md)

A step is an instruction and its closing fetch. The fetch writes only `ir`, `pc` and the micro-op counter, so the
frames of the instruction carry over; after either end the counter is 0, which is in every range. -/

namespace Sys2Proof.Proofs

open Sys2Proof.Machine Sys2Proof.Safety

variable {s t u : State} {i : Instr}

/-! ### The closing fetch -/

@[simp] theorem closingFetch_rom (i : Instr) (u : State) : (closingFetch i u).rom = u.rom := by cases i <;> rfl
@[simp] theorem closingFetch_ram (i : Instr) (u : State) : (closingFetch i u).ram = u.ram := by cases i <;> rfl
@[simp] theorem closingFetch_fault (i : Instr) (u : State) : (closingFetch i u).fault = u.fault := by cases i <;> rfl
@[simp] theorem closingFetch_refused (i : Instr) (u : State) : (closingFetch i u).refused = u.refused := by
  cases i <;> rfl
@[simp] theorem closingFetch_params (i : Instr) (u : State) : (closingFetch i u).params = u.params := by cases i <;> rfl

/-- The micro-op counter an instruction leaves is a function of the one it found. -/
theorem exec_upc (h : exec i s = .next t) : t.upc = if i = .stop then 0 else s.upc := by
  split
  · next hi =>
    subst hi
    rw [exec_stop] at h
    cases h
    rfl
  · next hi => exact (exec_keepsRunning hi h).upc

/-- An instruction and its closing fetch end at a boundary: STOP writes the micro-op counter itself (R182). -/
theorem closingFetch_upc (h : exec i s = .next u) : (closingFetch i u).upc = 0 := by
  by_cases hi : i = .stop
  · subst hi
    rw [closingFetch_stop, exec_upc h, if_pos rfl]
  · rw [closingFetch_of_ne hi, fetch_upc]

/-! ### The invariant -/

/-- At a boundary the micro-op counter is in its range: every micro-op table has a first entry (R104). -/
theorem upcInRange_of_upc (h : s.upc = 0) : upcInRange s := by
  unfold upcInRange
  split
  · exact h
  · rw [h]
    exact microcycles_pos _ _

theorem engineInv_closingFetch (hs : EngineInv s) (h : exec i s = .next u) : EngineInv (closingFetch i u) where
  rom := by rw [closingFetch_rom, (exec_keepsFixed h).rom, hs.rom]
  ram := by rw [closingFetch_ram, exec_wf_ram h hs.ram]
  params := by rw [closingFetch_params, (exec_keepsFixed h).params, hs.params]
  upc := upcInRange_of_upc (closingFetch_upc h)

/-- An intermediate micro-op keeps the invariant: the next index is still one of the instruction's own. -/
theorem engineInv_microfetch {m : Mnemonic} (hs : EngineInv s) (hm : currentEntry s = some m)
    (hlt : s.upc + 1 < s.params.microcycles m) : EngineInv (microfetch s) where
  rom := hs.rom
  ram := hs.ram
  params := hs.params
  upc := by
    have hm' : currentEntry (microfetch s) = some m := hm
    simpa [upcInRange, hm'] using hlt

/-- Settles O53: both operations run an instruction and its closing fetch, and a microstep may only count instead. -/
theorem stepKeepsTheInvariant : Obligations.StepKeepsTheInvariant := by
  refine fun s t hs => ⟨fun h => ?_, fun h => ?_⟩
  · obtain ⟨-, i, u, -, hx, rfl⟩ := step_next h
    exact engineInv_closingFetch hs hx
  · obtain ⟨-, -, ⟨m, hm, hlt, rfl⟩ | ⟨i, u, -, hx, rfl⟩⟩ := microstep_next h
    · exact engineInv_microfetch hs hm hlt
    · exact engineInv_closingFetch hs hx

/-- Settles O54: the opcodes of TESTCFG are admissible, and the reset state lists no cell. -/
theorem resetMeetsTheInvariant : Obligations.ResetMeetsTheInvariant :=
  ⟨⟨Memory.wf_nil, Memory.wf_nil, by decide, upcInRange_of_upc rfl⟩, ⟨rfl, rfl, rfl⟩⟩

theorem engineInv_softReset (hrom : Memory.wf s.rom = true) (hram : Memory.wf s.ram = true)
    (hp : s.params.wf = true) : EngineInv (softReset s) :=
  ⟨hrom, hram, hp, upcInRange_of_upc softReset_upc⟩

/-- A hard reset clears RAM, and ROM unless it is preserved. -/
theorem engineInv_hardReset (hrom : Memory.wf s.rom = true) (hp : s.params.wf = true) (keep : Bool) :
    EngineInv (hardReset keep s) where
  rom := by cases keep <;> simp [hrom]
  ram := by simp
  params := hp
  upc := upcInRange_of_upc (hardReset_upc keep)

theorem engineInv_afterRejectedLoad (hs : EngineInv s) : EngineInv (afterRejectedLoad s) :=
  ⟨wf_unspecifiedRom s.draws, hs.ram, hs.params, hs.upc⟩

/-- `load` places the words and ends with a soft reset, or rejects them (R210). -/
theorem load_cases (ws : List Word) (s : State) :
    (ws.length ≤ 256 ∧ load ws s = (.ok, softReset { s with rom := Memory.writeAll s.rom 0 ws })) ∨
      ∃ e, e ≠ .ok ∧ load ws s = (e, afterRejectedLoad s) := by
  unfold load
  split
  · exact .inr ⟨.oversize, nofun, rfl⟩
  · split
    · exact .inl ⟨by omega, rfl⟩
    · exact .inr ⟨.unknownOpcode, nofun, rfl⟩

theorem engineInv_load (hs : EngineInv s) (ws : List Word) : EngineInv (load ws s).2 := by
  obtain ⟨hl, h⟩ | ⟨_, -, h⟩ := load_cases ws s
  · rw [h]
    exact engineInv_softReset (Memory.wf_writeAll ws hs.rom (by omega)) hs.ram hs.params
  · rw [h]
    exact engineInv_afterRejectedLoad hs

/-- Settles O55, by operation; a created engine's memories are in canonical form. -/
theorem hostOperationsKeepTheInvariant : Obligations.HostOperationsKeepTheInvariant :=
  ⟨fun _ hs => ⟨engineInv_softReset hs.rom hs.ram hs.params, engineInv_hardReset hs.rom hs.params,
      fun _ => ⟨hs.rom, hs.ram, hs.params, hs.upc⟩, engineInv_load hs⟩,
    fun _ hp => ⟨engineInv_softReset wf_createdRom wf_createdRam hp, engineInv_hardReset wf_createdRom hp⟩⟩

/-! ### What a step leaves -/

/-- ROM, the parameters and the marks are those from before the instruction. -/
theorem closingFetch_keeps (h : exec i s = .next u) :
    (closingFetch i u).rom = s.rom ∧ (closingFetch i u).params = s.params ∧ (closingFetch i u).fault = s.fault ∧
      (closingFetch i u).refused = s.refused := by
  obtain ⟨-, hrom, hfault, hrefused, hparams⟩ := exec_keepsFixed h
  simp [hrom, hfault, hrefused, hparams]

/-- Settles O48: the frame of an instruction, then of its closing fetch; a microfetch writes only the counter. -/
theorem noInstructionWritesRom : Obligations.NoInstructionWritesRom := by
  refine ⟨fun i s t => exec_keepsFixed, fun s t h => ?_, fun s t h => ?_⟩
  · obtain ⟨-, i, u, -, hx, rfl⟩ := step_next h
    exact closingFetch_keeps hx
  · obtain ⟨-, -, ⟨m, -, -, rfl⟩ | ⟨i, u, -, hx, rfl⟩⟩ := microstep_next h
    · exact ⟨rfl, rfl, rfl, rfl⟩
    · exact closingFetch_keeps hx

/-- R121: after a fetch `ir` is the word in the cell before `pc`. -/
theorem fetchedWord_fetch (u : State) : FetchedWord (fetch u) := by
  simp [FetchedWord, romRead_congr (fetch_rom u)]

/-- Settles O56: a step that runs STOP halts without a fetch; any other step does not halt and ends with one. -/
theorem everyStepEndsAtABoundary : Obligations.EveryStepEndsAtABoundary := by
  intro s t h
  obtain ⟨hready, i, u, -, hx, rfl⟩ := step_next h
  refine ⟨closingFetch_upc hx, ?_⟩
  by_cases hi : i = .stop
  · subst hi
    rw [exec_stop] at hx
    cases hx
    exact ⟨nofun, fun _ => ⟨rfl, rfl⟩⟩
  · have hrun : u.halted = false := by rw [(exec_keepsRunning hi hx).halted, hready.running]
    rw [closingFetch_of_ne hi]
    exact ⟨fun _ => fetchedWord_fetch u, fun hhalt => by simp [hrun] at hhalt⟩

/-- What a successful load leaves is a soft reset, which ends with a fetch. -/
theorem load_ok_fetch {ws : List Word} (h : load ws s = (.ok, t)) : ∃ u, t = fetch u := by
  obtain ⟨-, h'⟩ | ⟨_, he, h'⟩ := load_cases ws s
  · rw [h'] at h
    cases h
    exact ⟨_, rfl⟩
  · rw [h'] at h
    cases h
    exact absurd rfl he

/-- Settles O47: the fields by their ranges, the fetch, and the operations that leave `ir` or end with a fetch. -/
theorem onlyFetchWritesIr : Obligations.OnlyFetchWritesIr :=
  ⟨fun s => ⟨opField_toNat s.ir, aField_toNat s.ir, bField_toNat s.ir⟩, fetch_ir, fun _ _ _ h => (exec_keepsFixed h).ir,
    fun s => ⟨microfetch_ir s, afterRejectedLoad_ir, fun _ => installHooks_ir _⟩,
    fun _ => ⟨⟨_, rfl⟩, fun _ => ⟨_, rfl⟩, fun _ _ => load_ok_fetch⟩⟩

/-! ### Completion -/

theorem withRegOperand_ne_refused {b : Byte} {k : RegIdx → Host.Outcome State Fault Refusal} {r : Refusal}
    (hk : ∀ q, k q ≠ .refused r) : withRegOperand s b k ≠ .refused r := by
  unfold withRegOperand
  split
  · nofun
  · exact hk _

theorem loadByte_ne_refused (s : State) (d : RegIdx) (a : Addr) (r : Refusal) : loadByte s d a ≠ .refused r := by
  cases e : s.hooks.askRead with
  | none => simp [loadByte_of_hung e]
  | some rh => simp [loadByte_of_ask (r := rh.1) (h := rh.2) e]

theorem storeByte_ne_refused (s : State) (x : RegIdx) (a : Addr) (r : Refusal) : storeByte s x a ≠ .refused r := by
  cases e : s.hooks.askWrite with
  | none => simp [storeByte_of_hung e]
  | some wh => simp [storeByte_of_ask (handled := wh.1) (h := wh.2) e]

/-- No instruction is refused: an instruction completes or faults. -/
theorem exec_ne_refused (i : Instr) (s : State) (r : Refusal) : exec i s ≠ .refused r := by
  cases i
  case add | sub | cp | mov => exact withRegOperand_ne_refused nofun
  case ld => exact withRegOperand_ne_refused fun _ => loadByte_ne_refused _ _ _ _
  case st => exact withRegOperand_ne_refused fun _ => storeByte_ne_refused _ _ _ _
  case lds => exact loadByte_ne_refused _ _ _ _
  case sts => exact storeByte_ne_refused _ _ _ _
  case call g =>
    cases e : s.hooks.askWrite with
    | none => simp [exec_call_of_hung e]
    | some wh => simp [exec_call_of_ask (handled := wh.1) (h := wh.2) e]
  case ret =>
    cases e : s.hooks.askRead with
    | none => simp [exec_ret_of_hung e]
    | some rh => simp [exec_ret_of_ask (r := rh.1) (h := rh.2) e]
  all_goals nofun

theorem loadByte_next (h : readReturns s) (d : RegIdx) (a : Addr) : ∃ t, loadByte s d a = .next t := by
  obtain ⟨rh, e⟩ := Option.isSome_iff_exists.mp h
  exact ⟨_, loadByte_of_ask e⟩

theorem storeByte_next (h : writeReturns s) (x : RegIdx) (a : Addr) : ∃ t, storeByte s x a = .next t := by
  obtain ⟨wh, e⟩ := Option.isSome_iff_exists.mp h
  exact ⟨_, storeByte_of_ask e⟩

/-- A well-formed instruction completes where the hook it calls answers. -/
theorem exec_completes (hw : i.wellFormed = true) (hl : loadAddress s i ≠ none → readReturns s)
    (hs : storeAddress s i ≠ none → writeReturns s) : ∃ t, exec i s = .next t := by
  cases i
  case add => exact ⟨_, exec_add ((isRegField_iff _).mp hw)⟩
  case sub => exact ⟨_, exec_sub ((isRegField_iff _).mp hw)⟩
  case cp => exact ⟨_, exec_cp ((isRegField_iff _).mp hw)⟩
  case mov => exact ⟨_, exec_mov ((isRegField_iff _).mp hw)⟩
  case ld d b =>
    have hb := (isRegField_iff b).mp hw
    rw [exec_ld hb]
    exact loadByte_next (hl (by simp [loadAddress, regOperand_of_le hb])) ..
  case st x b =>
    have hb := (isRegField_iff b).mp hw
    rw [exec_st hb]
    exact storeByte_next (hs (by simp [storeAddress, regOperand_of_le hb])) ..
  case lds => exact loadByte_next (hl nofun) ..
  case sts => exact storeByte_next (hs nofun) ..
  case call =>
    obtain ⟨wh, e⟩ := Option.isSome_iff_exists.mp (hs nofun)
    exact ⟨_, exec_call_of_ask e⟩
  case ret =>
    obtain ⟨rh, e⟩ := Option.isSome_iff_exists.mp (hl nofun)
    exact ⟨_, exec_ret_of_ask e⟩
  all_goals exact ⟨_, rfl⟩

/-- Settles O46: completion and the absence of a refusal, each by instruction. -/
theorem wellFormedInstructionsComplete : Obligations.WellFormedInstructionsComplete := fun i s =>
  ⟨exec_completes, exec_ne_refused i s⟩

end Sys2Proof.Proofs


/-! ## Scratch registers and the micro-op counter are not read (10_state.md R44)

No instruction reads `ac`, `mar`, `mdr` or `upc`: from a state with all four erased it does the same, up to `upc`, which
only STOP writes. So results do not depend on the scratch registers, and an instruction run at its last micro-op ends
as it would from the boundary before it (40_sequencer.md R103, R106). -/

namespace Sys2Proof.Proofs

open Sys2Proof.Machine Sys2Proof.Safety
open Host (Outcome)

variable {s t : State} {i : Instr}

/-! ### Outcomes -/

/-- The outcome with `f` applied to the next state. -/
def mapNext (f : State → State) : Outcome State Fault Refusal → Outcome State Fault Refusal
  | .next t => .next (f t)
  | .fault r => .fault r
  | .refused r => .refused r

theorem mapNext_mapNext (f g : State → State) (o : Outcome State Fault Refusal) :
    mapNext g (mapNext f o) = mapNext (g ∘ f) o := by
  cases o <;> rfl

theorem mapNext_eq_next {f : State → State} {o : Outcome State Fault Refusal} (h : mapNext f o = .next t) :
    ∃ u, o = .next u ∧ f u = t := by
  cases o with
  | next u => exact ⟨u, rfl, by cases h; rfl⟩
  | fault => cases h
  | refused => cases h

/-! ### Erasing what no instruction reads -/

/-- The state without its scratch registers and its place in the instruction. -/
def eraseHidden (s : State) : State := boundaryBefore (dropScratch s)

theorem eraseHidden_pc (s : State) : (eraseHidden s).pc = s.pc := rfl

theorem eraseHidden_sp (s : State) : (eraseHidden s).sp = s.sp := rfl

theorem mapNext_withRegOperand {f : State → State} {b : Byte} {k k' : RegIdx → Outcome State Fault Refusal}
    (hk : ∀ r, mapNext f (k' r) = mapNext f (k r)) :
    mapNext f (withRegOperand (eraseHidden s) b k') = mapNext f (withRegOperand s b k) := by
  unfold withRegOperand
  cases regOperand b with
  | none => rfl
  | some r => exact hk r

theorem loadByte_eraseHidden (s : State) (d : RegIdx) (a : Addr) :
    mapNext boundaryBefore (loadByte (eraseHidden s) d a) = mapNext boundaryBefore (loadByte s d a) := by
  cases e : s.hooks.askRead with
  | none => rw [loadByte_of_hung e, loadByte_of_hung (s := eraseHidden s) e]
  | some rh =>
    rw [loadByte_of_ask (r := rh.1) (h := rh.2) e, loadByte_of_ask (s := eraseHidden s) (r := rh.1) (h := rh.2) e]
    rfl

theorem storeUnlessHandled_eraseHidden (s : State) (h : Hooks) (c : HookCall) (a : Addr) (v : Byte) (handled : Bool) :
    storeUnlessHandled (afterHook (eraseHidden s) h c) a v handled =
      eraseHidden (storeUnlessHandled (afterHook s h c) a v handled) := by
  cases handled <;> rfl

theorem storeByte_eraseHidden (s : State) (x : RegIdx) (a : Addr) :
    mapNext boundaryBefore (storeByte (eraseHidden s) x a) = mapNext boundaryBefore (storeByte s x a) := by
  cases e : s.hooks.askWrite with
  | none => rw [storeByte_of_hung e, storeByte_of_hung (s := eraseHidden s) e]
  | some wh =>
    rw [storeByte_of_ask (handled := wh.1) (h := wh.2) e,
      storeByte_of_ask (s := eraseHidden s) (handled := wh.1) (h := wh.2) e, storeUnlessHandled_eraseHidden]
    rfl

theorem branchIf_eraseHidden (s : State) (c : Condition) (g : Addr) :
    boundaryBefore (branchIf (eraseHidden s) c g) = boundaryBefore (branchIf s c g) := by
  rw [branchIf_eq, branchIf_eq]
  rfl

/-- An instruction does the same from the erased state, but for the micro-op counter it leaves alone. -/
theorem exec_eraseHidden (i : Instr) (s : State) :
    mapNext boundaryBefore (exec i (eraseHidden s)) = mapNext boundaryBefore (exec i s) := by
  cases i
  case add | sub | cp | mov => exact mapNext_withRegOperand fun _ => rfl
  case ld => exact mapNext_withRegOperand fun _ => loadByte_eraseHidden ..
  case st => exact mapNext_withRegOperand fun _ => storeByte_eraseHidden ..
  case lds => exact loadByte_eraseHidden ..
  case sts => exact storeByte_eraseHidden ..
  case breq | brlo | brov | brlt => exact congrArg Outcome.next (branchIf_eraseHidden ..)
  case call =>
    cases e : s.hooks.askWrite with
    | none => rw [exec_call_of_hung e, exec_call_of_hung (s := eraseHidden s) e]
    | some wh =>
      rw [exec_call_of_ask (handled := wh.1) (h := wh.2) e,
        exec_call_of_ask (s := eraseHidden s) (handled := wh.1) (h := wh.2) e, eraseHidden_pc, eraseHidden_sp,
        storeUnlessHandled_eraseHidden]
      rfl
  case ret =>
    cases e : s.hooks.askRead with
    | none => rw [exec_ret_of_hung e, exec_ret_of_hung (s := eraseHidden s) e]
    | some rh =>
      rw [exec_ret_of_ask (r := rh.1) (h := rh.2) e, exec_ret_of_ask (s := eraseHidden s) (r := rh.1) (h := rh.2) e]
      rfl
  all_goals rfl

theorem eq_of_boundaryBefore (h : boundaryBefore t = boundaryBefore s) (hu : t.upc = s.upc) : t = s :=
  calc
    t = { boundaryBefore t with upc := t.upc } := rfl
    _ = { boundaryBefore s with upc := s.upc } := by rw [h, hu]
    _ = s := rfl

/-- Settles O52: the two runs agree on the erased state, and so up to the micro-op counter, which is the same. -/
theorem scratchRegistersAreNeverRead : Obligations.ScratchRegistersAreNeverRead := by
  intro i s s' t hss h
  have herase : eraseHidden s' = eraseHidden s := congrArg boundaryBefore hss
  have hmap : mapNext boundaryBefore (exec i s') = .next (boundaryBefore t) := by
    rw [← exec_eraseHidden, herase, exec_eraseHidden, h]
    rfl
  obtain ⟨t', ht', hb⟩ := mapNext_eq_next hmap
  have hupc : s'.upc = s.upc := (congrArg State.upc hss :)
  refine ⟨t', ht', congrArg dropScratch (eq_of_boundaryBefore hb ?_)⟩
  rw [exec_upc ht', exec_upc h, hupc]

/-! ### The instruction in `ir` does not depend on the micro-op counter -/

theorem runToBoundary_eq (i : Instr) (s : State) : runToBoundary i s = mapNext (closingFetch i) (exec i s) := by
  unfold runToBoundary
  cases exec i s <;> rfl

theorem runToBoundary_boundaryBefore (i : Instr) (s : State) :
    runToBoundary i (boundaryBefore s) = runToBoundary i s := by
  by_cases hi : i = .stop
  · subst hi
    rfl
  · have hfetch : closingFetch i = fetch ∘ boundaryBefore := funext fun u => by
      rw [closingFetch_of_ne hi]
      rfl
    have herase : eraseHidden (boundaryBefore s) = eraseHidden s := rfl
    rw [runToBoundary_eq, runToBoundary_eq, hfetch, ← mapNext_mapNext, ← mapNext_mapNext, ← exec_eraseHidden, herase,
      exec_eraseHidden]

/-- The word in `ir` runs to the same end from any of its micro-ops as from the boundary before it (R103, R106). -/
theorem runCurrent_boundaryBefore (s : State) : runCurrent (boundaryBefore s) = runCurrent s := by
  unfold runCurrent
  simp only [boundaryBefore_params, boundaryBefore_ir]
  cases decode s.params s.ir with
  | error => rfl
  | ok i => exact runToBoundary_boundaryBefore i s

theorem runCurrent_microfetch (s : State) : runCurrent (microfetch s) = runCurrent s :=
  (runCurrent_boundaryBefore (microfetch s)).symm.trans (runCurrent_boundaryBefore s)

end Sys2Proof.Proofs


/-! ## The stepping operations (40_sequencer.md)

A stepping operation on an engine that is neither halted nor faulted runs the word in `ir` to its boundary
(`runCurrent`): `step` at once, the microsteps of an instruction and `fullstep` after the intermediate micro-ops it
still has, whatever the micro-op table. A blockstep is a `fullstep` and a run of steps up to a stopping state. -/

namespace Sys2Proof.Proofs

open Sys2Proof.Machine Sys2Proof.Safety
open Host (Outcome)

variable {s t : State} {i : Instr} {m : Mnemonic} {r : Refusal} {f : Fault}

/-! ### Refusals -/

theorem step_of_refusal (h : stepRefusal s = some r) : step s = .refused r := by
  simp [step, stepOnce, h]

theorem microstep_of_refusal (h : stepRefusal s = some r) : microstep s = .refused r := by
  simp [microstep, h]

theorem hostStep_of_refusal (h : stepRefusal s = some r) : hostStep s = .refused (markRefused s r) :=
  congrArg (reply s) (step_of_refusal h)

theorem hostMicrostep_of_refusal (h : stepRefusal s = some r) : hostMicrostep s = .refused (markRefused s r) :=
  congrArg (reply s) (microstep_of_refusal h)

theorem drain_of_refusal (h : stepRefusal s = some r) (k : Nat) : drain k s = .refused (markRefused s r) := by
  cases k with
  | zero => exact hostMicrostep_of_refusal h
  | succ k => simp [drain, hostMicrostep_of_refusal h, Reply.andThen]

theorem fullstep_of_refusal (h : stepRefusal s = some r) : fullstep s = .refused (markRefused s r) := by
  unfold fullstep
  split
  · exact hostStep_of_refusal h
  · exact drain_of_refusal h _

theorem blockstep_of_refusal (h : stepRefusal s = some r) (n : Nat) : blockstep n s = .refused (markRefused s r) := by
  simp [blockstep, fullstep_of_refusal h, Reply.andThen]

/-- Every stepping operation refuses by the same reason and marks it (R107, R189). -/
theorem stepping_of_refusal (h : stepRefusal s = some r) :
    (step s = .refused r ∧ microstep s = .refused r) ∧ hostStep s = .refused (markRefused s r) ∧
      hostMicrostep s = .refused (markRefused s r) ∧ fullstep s = .refused (markRefused s r) ∧
      ∀ n, blockstep n s = .refused (markRefused s r) :=
  ⟨⟨step_of_refusal h, microstep_of_refusal h⟩, hostStep_of_refusal h, hostMicrostep_of_refusal h,
    fullstep_of_refusal h, blockstep_of_refusal h⟩

theorem step_of_midInstruction (h : stepRefusal s = none) (hu : s.upc ≠ 0) : step s = .refused .stepMidInstruction := by
  simp [step, stepOnce, h, hu]

/-- Settles O17, by the reason `stepRefusal` gives, and by the check of `upc` where it gives none. -/
theorem preconditionsAreRefused : Obligations.PreconditionsAreRefused := fun s =>
  ⟨fun h => stepping_of_refusal (stepRefusal_halted h), fun h hf => stepping_of_refusal (stepRefusal_fault h hf),
    fun h hf hu =>
      have hmid := step_of_midInstruction (stepRefusal_eq_none.mpr ⟨h, hf⟩) hu
      ⟨hmid, congrArg (reply s) hmid⟩⟩

/-! ### The word in `ir` -/

theorem runToBoundary_of_next (h : exec i s = .next t) : runToBoundary i s = .next (closingFetch i t) := by
  rw [runToBoundary_eq, h, mapNext]

theorem runToBoundary_of_fault (h : exec i s = .fault f) : runToBoundary i s = .fault f := by
  rw [runToBoundary_eq, h, mapNext]

theorem runCurrent_of_decode (h : decode s.params s.ir = .ok i) : runCurrent s = runToBoundary i s := by
  simp [runCurrent, h]

theorem runCurrent_of_no_entry (h : catalog s.params (opField s.ir) = none) :
    runCurrent s = .fault (.unknownOpcode s.pc s.ir) := by
  simp [runCurrent, decode_of_no_entry h, raiseUnknownOpcode]

/-- The word in `ir` completes or faults. -/
theorem runCurrent_ne_refused (s : State) (r : Refusal) : runCurrent s ≠ .refused r := by
  unfold runCurrent
  split
  · nofun
  · next i _ =>
    rw [runToBoundary_eq]
    cases h : exec i s with
    | next => nofun
    | fault => nofun
    | refused q => exact absurd h (exec_ne_refused i s q)

/-- The word in `ir` ends at a boundary. -/
theorem runCurrent_upc (h : runCurrent s = .next t) : t.upc = 0 := by
  unfold runCurrent at h
  split at h
  · cases h
  · rw [runToBoundary_eq] at h
    obtain ⟨u, hu, rfl⟩ := mapNext_eq_next h
    exact closingFetch_upc hu

/-- Settles O13: a ready engine runs the word in `ir`, and one that is not is refused. -/
theorem stepRunsTheDecodedInstruction : Obligations.StepRunsTheDecodedInstruction := by
  refine fun s => ⟨fun hs i hi => ?_, fun hs hc => ?_, fun hs => ?_⟩
  · rw [step_of_ready hs, runCurrent_of_decode hi]
    refine ⟨fun t ht hne => ?_, fun t ht he => ?_, fun f hf => runToBoundary_of_fault hf⟩
    · rw [runToBoundary_of_next ht, closingFetch_of_ne hne]
      rfl
    · rw [runToBoundary_of_next ht, he, closingFetch_stop]
  · rw [step_of_ready hs, runCurrent_of_no_entry hc]
  · cases hr : stepRefusal s with
    | some r => exact ⟨r, step_of_refusal hr⟩
    | none =>
      obtain ⟨hrun, hfault⟩ := stepRefusal_eq_none.mp hr
      exact ⟨_, step_of_midInstruction hr fun hu => hs ⟨hrun, hfault, hu⟩⟩

/-! ### Micro-ops -/

theorem microstep_of_intermediate (h : stepRefusal s = none) (hm : currentEntry s = some m)
    (hlt : s.upc + 1 < s.params.microcycles m) : microstep s = .next (microfetch s) := by
  simp [microstep, h, hm, hlt]

/-- The last micro-op, or an unassigned opcode at any, runs the word in `ir`. -/
theorem microstep_of_last (h : stepRefusal s = none)
    (hlast : ∀ m, currentEntry s = some m → ¬ s.upc + 1 < s.params.microcycles m) : microstep s = runCurrent s := by
  cases hm : currentEntry s with
  | none => simp [microstep, h, hm, runCurrent_of_no_entry hm, raiseUnknownOpcode]
  | some m => simp [microstep, h, hm, hlast m hm]

/-- Settles O14, by the place of the micro-op in its instruction. -/
theorem microstepRunsOneMicroOp : Obligations.MicrostepRunsOneMicroOp := by
  refine fun s => ⟨fun h => ?_, fun hrun hfault => ⟨fun hc => ?_, fun i hi => ⟨fun hlt => ?_, fun hlast => ?_⟩⟩⟩
  · cases hr : stepRefusal s with
    | some r => exact ⟨r, microstep_of_refusal hr⟩
    | none =>
      obtain ⟨hrun, hfault⟩ := stepRefusal_eq_none.mp hr
      simp [hrun, hfault] at h
  all_goals have hr := stepRefusal_eq_none.mpr ⟨hrun, hfault⟩
  · rw [microstep_of_last hr (by simp [currentEntry, hc]), runCurrent_of_no_entry hc]
  · exact microstep_of_intermediate hr (catalog_of_decode hi) (by omega)
  · rw [microstep_of_last hr, runCurrent_of_decode hi]
    · refine ⟨fun t ht hne => ?_, fun t ht he => ?_, fun f hf => runToBoundary_of_fault hf⟩
      · rw [runToBoundary_of_next ht, closingFetch_of_ne hne]
      · have hupc := closingFetch_upc ht
        subst he
        rw [runToBoundary_of_next ht]
        exact congrArg Outcome.next (boundaryBefore_of_upc hupc).symm
    · intro m hm
      obtain rfl : m = i.mnemonic := Option.some.inj (hm.symm.trans (catalog_of_decode hi))
      omega

theorem remainingMicroOps_of_entry (hm : currentEntry s = some m) :
    remainingMicroOps s = s.params.microcycles m - 1 - s.upc := by
  simp [remainingMicroOps, hm]

/-- With no intermediate micro-op left, a microstep runs the word in `ir`. -/
theorem microstep_of_remaining_zero (h : stepRefusal s = none) (hk : remainingMicroOps s = 0) :
    microstep s = runCurrent s := by
  refine microstep_of_last h fun m hm => ?_
  rw [remainingMicroOps_of_entry hm] at hk
  omega

/-- With intermediate micro-ops left, a microstep is one of them. -/
theorem microstep_of_remaining_succ {k : Nat} (h : stepRefusal s = none) (hk : remainingMicroOps s = k + 1) :
    microstep s = .next (microfetch s) ∧ remainingMicroOps (microfetch s) = k := by
  cases hm : currentEntry s with
  | none => simp [remainingMicroOps, hm] at hk
  | some m =>
    have hm' : currentEntry (microfetch s) = some m := hm
    rw [remainingMicroOps_of_entry hm] at hk
    rw [remainingMicroOps_of_entry hm']
    refine ⟨microstep_of_intermediate h hm (by omega), ?_⟩
    simp only [microfetch_params, microfetch_upc]
    omega

theorem microsteps_of_remaining : ∀ {k : Nat} {s : State}, stepRefusal s = none → remainingMicroOps s = k →
    microsteps (k + 1) s = runCurrent s
  | 0, s, h, hk => by
    simp only [microsteps, microstep_of_remaining_zero h hk]
    cases runCurrent s <;> rfl
  | k + 1, s, h, hk => by
    obtain ⟨hstep, hrest⟩ := microstep_of_remaining_succ h hk
    rw [microsteps, hstep]
    exact (microsteps_of_remaining (s := microfetch s) h hrest).trans (runCurrent_microfetch s)

/-- Settles O15: at a boundary the instruction has all but one of its micro-ops left. -/
theorem stepEqualsItsMicrosteps : Obligations.StepEqualsItsMicrosteps := by
  intro s m hu hm
  have hpos := microcycles_pos s.params m
  obtain ⟨k, hk⟩ : ∃ k, s.params.microcycles m = k + 1 := ⟨_, (Nat.sub_add_cancel hpos).symm⟩
  rw [hk]
  cases hr : stepRefusal s with
  | some r => rw [microsteps, microstep_of_refusal hr, step_of_refusal hr]
  | none =>
    obtain ⟨hrun, hfault⟩ := stepRefusal_eq_none.mp hr
    rw [step_of_ready ⟨hrun, hfault, hu⟩]
    exact microsteps_of_remaining hr (by rw [remainingMicroOps_of_entry hm, hk, hu]; rfl)

/-! ### Fullstep -/

/-- A fault leaves the boundary before the word from any of its micro-ops (R191). -/
theorem reply_microfetch {o : Outcome State Fault Refusal} (ho : ∀ r, o ≠ .refused r) :
    reply (microfetch s) o = reply s o := by
  cases o with
  | next => rfl
  | fault f => cases f <;> rfl
  | refused r => exact absurd rfl (ho r)

theorem drain_of_remaining : ∀ {k : Nat} {s : State}, stepRefusal s = none → remainingMicroOps s = k →
    drain k s = reply s (runCurrent s)
  | 0, s, h, hk => by rw [drain, hostMicrostep, microstep_of_remaining_zero h hk]
  | k + 1, s, h, hk => by
    obtain ⟨hstep, hrest⟩ := microstep_of_remaining_succ h hk
    rw [drain, hostMicrostep, hstep]
    exact (drain_of_remaining (s := microfetch s) h hrest).trans
      (by rw [runCurrent_microfetch, reply_microfetch (runCurrent_ne_refused s)])

/-- A fullstep that is not refused runs the word in `ir`, from any of its micro-ops (R108). -/
theorem fullstep_eq (h : stepRefusal s = none) : fullstep s = reply s (runCurrent s) := by
  obtain ⟨hrun, hfault⟩ := stepRefusal_eq_none.mp h
  unfold fullstep
  split
  · next hu => exact congrArg (reply s) (step_of_ready ⟨hrun, hfault, hu⟩)
  · exact drain_of_remaining h rfl

/-- Settles O16: the fullstep and the step from the boundary before both run the word in `ir`. -/
theorem fullstepCompletesTheInstruction : Obligations.FullstepCompletesTheInstruction := by
  intro s t _ h
  change step (boundaryBefore s) = .next t at h
  obtain ⟨hready, -⟩ := step_next h
  rw [step_of_ready hready, runCurrent_boundaryBefore] at h
  have hr : stepRefusal s = none := stepRefusal_eq_none.mpr ⟨hready.running, hready.noFault⟩
  rw [fullstep_eq hr, h, reply]

end Sys2Proof.Proofs


/-! ## Faults, blocksteps and control signals (40_sequencer.md, 60_exceptions.md)

What the host has after a fault; the run of steps a blockstep is, up to the first stopping state; and the control
signals, read off the micro-op table at the counter. -/

namespace Sys2Proof.Proofs

open Sys2Proof.Machine Sys2Proof.Safety
open Host (Outcome)

variable {s t : State} {i : Instr} {m : Mnemonic} {f : Fault}

/-! ### Faults -/

/-- At a boundary the mark is all a fault changes (R186). -/
theorem markFault_of_upc (h : s.upc = 0) (f : Fault) : markFault s f = { s with fault := some f } := by
  rw [markFault, boundaryBefore_of_upc h]

/-- Settles O18: at a ready boundary both operations run the word, which faults; the mark refuses the next step. -/
theorem unknownOpcodeFaultIsPrecise : Obligations.UnknownOpcodeFaultIsPrecise := by
  intro s hs hc
  have hrun := runCurrent_of_no_entry hc
  have hstep : step s = .fault (.unknownOpcode s.pc s.ir) := (step_of_ready hs).trans hrun
  have hmicro : microstep s = .fault (.unknownOpcode s.pc s.ir) :=
    (microstep_of_last (stepRefusal_eq_none.mpr ⟨hs.running, hs.noFault⟩) (by simp [currentEntry, hc])).trans hrun
  rw [← markFault_of_upc hs.boundary]
  exact ⟨congrArg (reply s) hstep, congrArg (reply s) hmicro, _,
    hostStep_of_refusal (stepRefusal_fault hs.running nofun)⟩

/-- Settles O45: the six forms fault alike, and each stepping operation runs the word in `ir`. -/
theorem formatAFaultsOnAMissingRegister : Obligations.FormatAFaultsOnAMissingRegister := by
  intro s d b hb i hi
  have hx : exec i s = .fault (.registerIndexOutOfRange s.pc s.ir) := by
    fin_cases hi <;> exact withRegOperand_of_gt hb _
  refine ⟨hx, fun hrun hfault hd => ?_⟩
  have hr : stepRefusal s = none := stepRefusal_eq_none.mpr ⟨hrun, hfault⟩
  have hcur : runCurrent s = .fault (.registerIndexOutOfRange s.pc s.ir) :=
    (runCurrent_of_decode hd).trans (runToBoundary_of_fault hx)
  have hentry : currentEntry s = some i.mnemonic := catalog_of_decode hd
  refine ⟨fun hu => ?_, fun hu => ?_, fun _ => ?_⟩
  · rw [← markFault_of_upc hu]
    exact congrArg (reply s) ((step_of_ready ⟨hrun, hfault, hu⟩).trans hcur)
  · have hlast : remainingMicroOps s = 0 := by
      rw [remainingMicroOps_of_entry hentry]
      omega
    exact congrArg (reply s) ((microstep_of_remaining_zero hr hlast).trans hcur)
  · rw [fullstep_eq hr, hcur]
    rfl

/-! ### Replies -/

theorem reply_eq_done {o : Outcome State Fault Refusal} : reply s o = .done t () ↔ o = .next t := by
  cases o with
  | next u => simp [reply]
  | fault f => cases f <;> simp [reply]
  | refused r => simp [reply]

theorem andThen_eq_done {α β : Type} {r : Reply α} {k : State → α → Reply β} {b : β} (h : r.andThen k = .done t b) :
    ∃ u a, r = .done u a ∧ k u a = .done t b := by
  cases r with
  | done u a => exact ⟨u, a, rfl, h⟩
  | faulted | refused | hung => cases h

/-- A fullstep that returns ends at a boundary. -/
theorem fullstep_upc (h : fullstep s = .done t ()) : t.upc = 0 := by
  cases hr : stepRefusal s with
  | some r => rw [fullstep_of_refusal hr] at h; cases h
  | none => exact runCurrent_upc (reply_eq_done.mp (fullstep_eq hr ▸ h))

/-! ### Blocksteps -/

/-- A stopping state of a blockstep: halted, or with a control transfer fetched (R117). -/
def stops (s : State) : Bool := s.halted || atControlTransfer s

theorem atControlTransfer_iff :
    atControlTransfer s = true ↔ ∃ m, catalog s.params (opField s.ir) = some m ∧ isControlTransfer m = true := by
  unfold atControlTransfer currentEntry
  cases catalog s.params (opField s.ir) <;> simp

theorem stops_iff :
    stops s = true ↔
      s.halted = true ∨ ∃ m, catalog s.params (opField s.ir) = some m ∧ isControlTransfer m = true := by
  rw [stops, Bool.or_eq_true, atControlTransfer_iff]

/-- The state is not a stopping one, as R117 says it. -/
theorem stops_eq_false_iff :
    stops s = false ↔
      s.halted = false ∧ ∀ m, catalog s.params (opField s.ir) = some m → isControlTransfer m = false := by
  rw [← Bool.not_eq_true, stops_iff]
  simp

/-- The loop ends at once in a stopping state, whatever its budget. -/
theorem blockLoop_of_stops (h : stops s = true) (n : Nat) : blockLoop n s = .done s true := by
  cases n with
  | zero => exact congrArg (Reply.done s) h
  | succ n => exact if_pos h

theorem blockLoop_succ_of_not_stops (h : stops s = false) (n : Nat) :
    blockLoop (n + 1) s = (hostStep s).andThen fun t _ => blockLoop n t :=
  if_neg (by rw [stops] at h; simp [h])

theorem run_succ_of_step {M : Host.Core} {a b : M.State} (h : M.step a = .next b) (k : Nat) :
    M.run (k + 1) a = M.run k b := by
  simp [Host.Core.run, h]

/-- The way from `s` to `t` in `k` steps, none of them from a stopping state. -/
structure RunsTo (k : Nat) (s t : State) : Prop where
  run : Host.Core.run Sys2Proof.core k s = .next t
  running : ∀ j v, j < k → Host.Core.run Sys2Proof.core j s = .next v → stops v = false

theorem RunsTo.refl (s : State) : RunsTo 0 s s :=
  ⟨rfl, fun j _ hj => absurd hj (Nat.not_lt_zero j)⟩

theorem RunsTo.cons {u : State} {k : Nat} (hs : stops s = false) (hstep : step s = .next u) (h : RunsTo k u t) :
    RunsTo (k + 1) s t where
  run := (run_succ_of_step (M := Sys2Proof.core) hstep k).trans h.run
  running j v hj hv := by
    cases j with
    | zero =>
      cases hv
      exact hs
    | succ j => exact h.running j v (by omega) ((run_succ_of_step (M := Sys2Proof.core) hstep j).symm.trans hv)

/-- The loop of a blockstep runs to the first stopping state, or uses its whole budget. -/
theorem blockLoop_runsTo : ∀ {n : Nat} {s : State} {b : Bool}, s.upc = 0 → blockLoop n s = .done t b →
    t.upc = 0 ∧ b = stops t ∧ ∃ k, k ≤ n ∧ RunsTo k s t ∧ (b = false → k = n)
  | 0, s, b, hu, h => by
    cases h
    exact ⟨hu, rfl, 0, Nat.le_refl 0, .refl _, fun _ => rfl⟩
  | n + 1, s, b, hu, h => by
    cases hs : stops s with
    | true =>
      rw [blockLoop_of_stops hs] at h
      cases h
      exact ⟨hu, hs.symm, 0, Nat.zero_le _, .refl _, nofun⟩
    | false =>
      rw [blockLoop_succ_of_not_stops hs] at h
      obtain ⟨u, _, hstep, hloop⟩ := andThen_eq_done h
      have hnext : step s = .next u := reply_eq_done.mp hstep
      obtain ⟨-, i, v, -, hx, rfl⟩ := step_next hnext
      obtain ⟨hut, hb, k, hk, hrun, hfull⟩ := blockLoop_runsTo (closingFetch_upc hx) hloop
      exact ⟨hut, hb, k + 1, by omega, hrun.cons hs hnext, fun e => by rw [hfull e]⟩

/-- Settles O19: the class by mnemonic; and the loop after the fullstep ends at once. -/
theorem blockstepStopsAtControlTransfers : Obligations.BlockstepStopsAtControlTransfers := by
  refine ⟨fun m => by cases m <;> decide, fun s t m n h hm hc => ?_⟩
  have hstop : stops t = true := stops_iff.mpr (.inr ⟨m, hm, hc⟩)
  rw [blockstep, h]
  exact blockLoop_of_stops hstop n

/-- Settles O20: the fullstep ends at a boundary, and the loop's run from there is `blockLoop_runsTo`. -/
theorem blockstepIsBoundedAndEndsAtABoundary : Obligations.BlockstepIsBoundedAndEndsAtABoundary := by
  intro n s t b h
  obtain ⟨u, _, hfull, hloop⟩ := andThen_eq_done h
  obtain ⟨hut, rfl, k, hk, hrun, hb⟩ := blockLoop_runsTo (fullstep_upc hfull) hloop
  exact ⟨hut, stops_iff, u, k, hfull, hk, hrun.run, hb, fun j v hj hv => stops_eq_false_iff.mp (hrun.running j v hj hv)⟩

/-! ### Control signals -/

/-- In its range the control signals are the table's entry at the counter (R34). -/
theorem signal_eq_ctrl (hm : catalog s.params (opField s.ir) = some m) (hlt : s.upc < s.params.microcycles m) :
    ((s.params.signals.get m).first :: (s.params.signals.get m).rest)[s.upc]? = some s.ctrl := by
  have hstated : s.statedCtrl =
      ((s.params.signals.get m).first :: (s.params.signals.get m).rest)[s.upc]? := by
    simp only [State.statedCtrl, currentEntry, hm, signalAt]
  rw [State.ctrl, hstated, List.getElem?_eq_getElem hlt]
  rfl

/-- Settles O21: the entry at the counter, after a microfetch the next, and at a boundary the first. -/
theorem ctrlFollowsTheSignalSequence : Obligations.CtrlFollowsTheSignalSequence := by
  refine fun s m hm => ⟨fun hlt => ⟨_, signal_eq_ctrl hm hlt, rfl⟩,
    fun hlt => ⟨_, signal_eq_ctrl (s := microfetch s) hm hlt, rfl⟩, fun hu => ?_⟩
  have hentry := signal_eq_ctrl hm (by rw [hu]; exact microcycles_pos s.params m)
  rw [hu] at hentry
  exact (Option.some.inj hentry).symm

end Sys2Proof.Proofs


/-! ## Signed arithmetic and comparison (41_arithmetic.md R125, 90_conflicts.md C4)

The adder's V and N read as signed numbers: V holds exactly when the exact sum does not fit a byte, and N xor V is the
sign of the exact sum. Subtraction is the adder on the complement, which is `-b - 1`. -/

namespace Sys2Proof.Proofs

open Sys2Proof.Machine Sys2Proof.Safety

variable (a b : Byte) (carryIn : Bool)

/-! ### Signs -/

theorem toInt_eq_ite : a.toInt = if 128 ≤ a.toNat then (a.toNat : Int) - 256 else a.toNat := by
  rw [BitVec.toInt_eq_toNat_cond]
  split_ifs <;> omega

theorem sign_iff : a.getLsbD 7 = true ↔ 128 ≤ a.toNat := by
  rw [← BitVec.msb_eq_getLsbD_last, BitVec.msb_eq_true_iff_two_mul_ge]
  omega

theorem sign_eq_iff : a.getLsbD 7 = b.getLsbD 7 ↔ (128 ≤ a.toNat ↔ 128 ≤ b.toNat) := by
  rw [Bool.eq_iff_iff, sign_iff, sign_iff]

theorem toInt_not_byte : (~~~b).toInt = -b.toInt - 1 := by
  have hb := b.isLt
  rw [toInt_eq_ite, toInt_eq_ite, BitVec.toNat_not]
  split_ifs <;> omega

/-! ### The adder on signed numbers -/

/-- V is two's-complement overflow of the adder's own sum, carry in included. -/
theorem adder_v_iff_overflow :
    (adder a b carryIn).flags.v = true ↔
      a.toInt + b.toInt + carryIn.toNat < -128 ∨ 127 < a.toInt + b.toInt + carryIn.toNat := by
  have ha := a.isLt
  have hb := b.isLt
  have hc := carryIn.toNat_lt
  rw [adder_v, ne_eq, sign_eq_iff, sign_eq_iff, adder_value_toNat, toInt_eq_ite a, toInt_eq_ite b]
  split_ifs <;> omega

/-- N xor V is the sign of the adder's exact sum. -/
theorem adder_n_xor_v_iff_neg :
    ((adder a b carryIn).flags.n ^^ (adder a b carryIn).flags.v) = true ↔
      a.toInt + b.toInt + carryIn.toNat < 0 := by
  have ha := a.isLt
  have hb := b.isLt
  have hc := carryIn.toNat_lt
  rw [Bool.xor_iff_ne, ne_eq, Bool.eq_iff_iff, adder_v_iff_overflow, adder_n, sign_iff, adder_value_toNat,
    toInt_eq_ite a, toInt_eq_ite b]
  split_ifs <;> omega

/-! ### Subtraction on signed numbers -/

theorem aluSub_v_iff_overflow :
    (aluSub a b).flags.v = true ↔ a.toInt - b.toInt < -128 ∨ 127 < a.toInt - b.toInt := by
  rw [aluSub, adder_v_iff_overflow, toInt_not_byte, Bool.toNat_true]
  omega

theorem aluSub_n_xor_v_iff_lt :
    ((aluSub a b).flags.n ^^ (aluSub a b).flags.v) = true ↔ a.toInt < b.toInt := by
  rw [aluSub, adder_n_xor_v_iff_neg, toInt_not_byte, Bool.toNat_true]
  omega

theorem aluSub_z_iff_eq : (aluSub a b).flags.z = true ↔ a = b := by
  have hz : (aluSub a b).flags.z = true ↔ (aluSub a b).value = 0#8 := adder_z a (~~~b) true
  rw [hz, aluSub_value]
  exact sub_eq_zero

/-- Settles O23: the adder's overflow at a carry in of 0, and the two readings of subtraction. -/
theorem overflowIsTwosComplement : Obligations.OverflowIsTwosComplement := by
  refine fun a b => ⟨?_, aluSub_v_iff_overflow a b, aluSub_n_xor_v_iff_lt a b⟩
  rw [aluAdd, adder_v_iff_overflow, Bool.toNat_false]
  omega

end Sys2Proof.Proofs


/-! ## Arithmetic, rotates and moves (41_arithmetic.md, 42_rotate.md, 43_data_transfer.md)

What the shared ends of these instructions leave: the destination and the flags, and the frame. Each instruction's
statement is its equation of `Laws.Exec` and the lemma about its end. -/

namespace Sys2Proof.Proofs

open Sys2Proof.Machine Sys2Proof.Safety

variable (s : State) (d : RegIdx) (r : AluResult)

/-! ### The ends -/

theorem finishArith_spec :
    RegsAre s (finishArith s d r) (some d) r.value ∧ (finishArith s d r).flags = r.flags ∧
      (finishArith s d r).ac = r.value ∧ KeepsControl s (finishArith s d r) ∧ KeepsPort s (finishArith s d r) ∧
      KeepsFixed s (finishArith s d r) :=
  ⟨regsAre_writeReg rfl, rfl, rfl, ⟨rfl, rfl, rfl, rfl⟩, ⟨rfl, rfl, rfl⟩, ⟨rfl, rfl, rfl, rfl, rfl⟩⟩

theorem finishCompare_spec :
    (finishCompare s r).regs = s.regs ∧ (finishCompare s r).flags = r.flags ∧ (finishCompare s r).ac = r.value ∧
      KeepsControl s (finishCompare s r) ∧ KeepsPort s (finishCompare s r) ∧ KeepsFixed s (finishCompare s r) :=
  ⟨rfl, rfl, rfl, ⟨rfl, rfl, rfl, rfl⟩, ⟨rfl, rfl, rfl⟩, ⟨rfl, rfl, rfl, rfl, rfl⟩⟩

theorem finishRotate_regsAre : RegsAre s (finishRotate s d r) (some d) r.value := regsAre_writeReg rfl

theorem finishRotate_frame :
    KeepsControl s (finishRotate s d r) ∧ KeepsPort s (finishRotate s d r) ∧ KeepsFixed s (finishRotate s d r) :=
  ⟨⟨rfl, rfl, rfl, rfl⟩, ⟨rfl, rfl, rfl⟩, ⟨rfl, rfl, rfl, rfl, rfl⟩⟩

theorem writeReg_scratchDrawn_spec (v : Byte) :
    RegsAre s (writeReg (scratchDrawn s) d v) (some d) v ∧ (writeReg (scratchDrawn s) d v).flags = s.flags ∧
      KeepsControl s (writeReg (scratchDrawn s) d v) ∧ KeepsPort s (writeReg (scratchDrawn s) d v) ∧
      KeepsFixed s (writeReg (scratchDrawn s) d v) :=
  ⟨regsAre_writeReg rfl, rfl, ⟨rfl, rfl, rfl, rfl⟩, ⟨rfl, rfl, rfl⟩, ⟨rfl, rfl, rfl, rfl, rfl⟩⟩

/-! ### The obligations -/

/-- Settles O24, by the end of an arithmetic instruction. -/
theorem addAndSubtract : Obligations.AddAndSubtract := fun s d _ =>
  ⟨fun h => ⟨_, exec_add h, finishArith_spec s d _⟩, fun h => ⟨_, exec_sub h, finishArith_spec s d _⟩,
    ⟨_, exec_subi d _, finishArith_spec s d _⟩⟩

/-- Settles O25, by the end of an arithmetic instruction and the catalog. -/
theorem addImmediate : Obligations.AddImmediate :=
  ⟨fun s d k => ⟨_, exec_addi d k, finishArith_spec s d _⟩, fun _ _ hp hw => decode_of_opc hp hw⟩

/-- Settles O26, by the end of a comparison. -/
theorem compareWritesNoRegister : Obligations.CompareWritesNoRegister := fun s d _ =>
  ⟨fun h => ⟨_, exec_cp h, finishCompare_spec s _⟩, ⟨_, exec_cpi d _, finishCompare_spec s _⟩⟩

/-- After a rotate Z and N are those of the byte in the register (R144, R145). -/
theorem finishRotate_zn (hz : r.flags.z = (r.value == 0)) (hn : r.flags.n = r.value.getLsbD 7) :
    ((finishRotate s d r).flags.z = true ↔ readReg (finishRotate s d r) d = 0#8) ∧
      (finishRotate s d r).flags.n = (readReg (finishRotate s d r) d).getLsbD 7 := by
  rw [finishRotate_flags, readReg_finishRotate, hz, hn]
  exact ⟨beq_iff_eq, rfl⟩

/-- Settles O28: C and V are those of the rotate; Z and N are the register's. -/
theorem rotatesWriteRegisterAndFlags : Obligations.RotatesWriteRegisterAndFlags := by
  refine fun s d => ⟨⟨_, exec_rol d, finishRotate_regsAre s d _, rfl, rfl, ?_⟩,
    ⟨_, exec_ror d, finishRotate_regsAre s d _, rfl, rfl, ?_⟩⟩
  · obtain ⟨hz, hn⟩ := finishRotate_zn s d (rotateLeft (readReg s d) s.flags.c) rfl rfl
    exact ⟨hz, hn, finishRotate_frame ..⟩
  · obtain ⟨hz, hn⟩ := finishRotate_zn s d (rotateRight (readReg s d) s.flags.c) rfl rfl
    exact ⟨hz, hn, finishRotate_frame ..⟩

/-- ROR takes the bit ROL brought in back into the carry. -/
theorem rotateRight_rotateLeft_c (a : Byte) (c : Bool) :
    (rotateRight (rotateLeft a c).value (rotateLeft a c).flags.c).flags.c = c :=
  rotateLeft_value_getElem a c (by decide)

/-- ROR moves every bit back, and the carry ROL left into bit 7. -/
theorem rotateRight_rotateLeft_value (a : Byte) (c : Bool) :
    (rotateRight (rotateLeft a c).value (rotateLeft a c).flags.c).value = a := by
  ext i hi
  rw [rotateRight_value_getElem]
  split
  · rw [rotateLeft_value_getElem, if_neg (by omega)]
    simp
  · obtain rfl : i = 7 := by omega
    exact BitVec.getLsbD_eq_getElem hi

/-- Settles O29: the two rotates of the byte and the carry cancel, and neither writes another register. -/
theorem rorUndoesRol : Obligations.RorUndoesRol := by
  intro s d
  refine ⟨_, _, exec_rol d, exec_ror d, ?_⟩
  rw [finishRotate_flags, readReg_finishRotate, finishRotate_flags]
  refine ⟨rotateRight_rotateLeft_c .., fun q => ?_⟩
  rw [finishRotate_regsAre, finishRotate_regsAre, rotateRight_rotateLeft_value]
  split
  · next hq => rw [Option.some.inj hq]
  · rfl

/-- Settles O33, by the end of a move. -/
theorem moveAndLoadImmediate : Obligations.MoveAndLoadImmediate := fun s d b =>
  ⟨fun h => ⟨_, exec_mov h, writeReg_scratchDrawn_spec s d _⟩, ⟨_, exec_ldi d b, writeReg_scratchDrawn_spec s d b⟩⟩

end Sys2Proof.Proofs


/-! ## Loads and stores (43_data_transfer.md)

A load through the port where the read hook answers; a store is `storeByte_completes`. -/

namespace Sys2Proof.Proofs

open Sys2Proof.Machine Sys2Proof.Safety

variable {s : State} {d : RegIdx} {a : Addr} {r : ReadAnswer} {h : Hooks}

theorem loadByte_completes (e : s.hooks.askRead = some (r, h)) :
    ∃ t, loadByte s d a = .next t ∧ RegsAre s t (some d) (readValue s a r) ∧ t.mar = a ∧ t.mdr = readValue s a r ∧
      t.hooks = h ∧ t.hookCalls = s.hookCalls ++ [.read a] ∧
      t.ram = s.ram ∧ t.flags = s.flags ∧ KeepsControl s t ∧ KeepsFixed s t :=
  ⟨_, loadByte_of_ask e, regsAre_writeReg rfl, rfl, rfl, rfl, rfl, rfl, rfl, ⟨rfl, rfl, rfl, rfl⟩,
    ⟨rfl, rfl, rfl, rfl, rfl⟩⟩

/-- Settles O32, by the stops of the six users of the port. -/
theorem hungHookLeavesNoNextState : Obligations.HungHookLeavesNoNextState := by
  refine fun s x b g => ⟨fun e => ⟨fun hb => ?_, loadByte_of_hung e, exec_ret_of_hung e⟩,
    fun e => ⟨fun hb => ?_, storeByte_of_hung e, exec_call_of_hung e⟩, rfl⟩
  · rw [exec_ld hb, loadByte_of_hung e]
  · rw [exec_st hb, storeByte_of_hung e]

/-- Settles O34: both are a load, from the address in a register or in field B. -/
theorem loadsReadThePort : Obligations.LoadsReadThePort := by
  refine fun s d b r h e => ⟨fun hb => ?_, loadByte_completes e⟩
  rw [exec_ld hb]
  exact loadByte_completes e

/-- Settles O35: ST is a store to the address in a register. -/
theorem storeIndirectWritesThePort : Obligations.StoreIndirectWritesThePort := by
  intro s x b handled h e hb
  rw [exec_st hb]
  exact storeByte_completes e

/-- Settles O37: the store leaves the byte in the cell and the default hooks in place, so the load reads it. -/
theorem loadAfterStoreReadsTheByte : Obligations.LoadAfterStoreReadsTheByte := by
  intro s x d a hhooks hwf
  obtain ⟨t, ht, hstored, -, -, hthooks, htcalls, -⟩ :=
    storeByte_completes (x := x) (a := a) (by rw [hhooks]; exact askWrite_stubs)
  obtain ⟨u, hu, huregs, -, -, -, hucalls, huram, -⟩ :=
    loadByte_completes (s := t) (d := d) (a := a) (by rw [hthooks]; exact askRead_stubs)
  refine ⟨t, u, ht, hu, ?_, ?_, fun b hb => ?_⟩
  · rw [huregs d, if_pos rfl, readValue_notControlled, hstored.byEngine rfl hwf]
  · rw [hucalls, htcalls, List.append_assoc]
    rfl
  · rw [ramRead_congr huram, hstored.others b hb]

end Sys2Proof.Proofs


/-! ## Control flow (44_control_flow.md)

A jump and a branch write `pc` alone; CALL and RET go through the port. -/

namespace Sys2Proof.Proofs

open Sys2Proof.Machine Sys2Proof.Safety

variable {s : State} {g : Addr} {h : Hooks}

/-! ### Jumps and branches -/

theorem writePc_scratchDrawn_spec (s : State) (g : Addr) :
    (writePc (scratchDrawn s) g).pc = g ∧ (writePc (scratchDrawn s) g).sp = s.sp ∧
      (writePc (scratchDrawn s) g).regs = s.regs ∧ (writePc (scratchDrawn s) g).flags = s.flags ∧
      KeepsRunning s (writePc (scratchDrawn s) g) ∧ KeepsPort s (writePc (scratchDrawn s) g) ∧
      KeepsFixed s (writePc (scratchDrawn s) g) :=
  ⟨rfl, rfl, rfl, rfl, ⟨rfl, rfl⟩, ⟨rfl, rfl, rfl⟩, ⟨rfl, rfl, rfl, rfl, rfl⟩⟩

theorem branchIf_spec (s : State) (c : Condition) (g : Addr) :
    (branchIf s c g).pc = (if holdsCond s.params.loTakenWhenC s.flags c then g else s.pc) ∧
      (branchIf s c g).sp = s.sp ∧ (branchIf s c g).regs = s.regs ∧ (branchIf s c g).flags = s.flags ∧
      KeepsRunning s (branchIf s c g) ∧ KeepsPort s (branchIf s c g) ∧ KeepsFixed s (branchIf s c g) := by
  rw [branchIf_eq]
  exact writePc_scratchDrawn_spec s _

/-- Settles O38: the conditions by their definition, the branches by their common form, the words by the catalog. -/
theorem branchesFollowTheirCondition : Obligations.BranchesFollowTheirCondition := by
  refine ⟨fun lo f => ⟨Iff.rfl, beq_iff_eq, Iff.rfl, Iff.rfl⟩, fun s g i c hi => ?_, fun p w hp =>
    ⟨decode_of_opc hp, decode_of_opc hp, decode_of_opc hp, decode_of_opc hp⟩⟩
  simp only [List.mem_cons, Prod.mk.injEq, List.not_mem_nil, or_false] at hi
  obtain ⟨rfl, rfl⟩ | ⟨rfl, rfl⟩ | ⟨rfl, rfl⟩ | ⟨rfl, rfl⟩ := hi
  · exact ⟨_, exec_breq g, branchIf_spec s .eq g⟩
  · exact ⟨_, exec_brlo g, branchIf_spec s .lo g⟩
  · exact ⟨_, exec_brov g, branchIf_spec s .ov g⟩
  · exact ⟨_, exec_brlt g, branchIf_spec s .lt g⟩

/-- Where a branch of a compared pair goes: its condition is read off the subtraction's flags. -/
theorem branchIf_pc_of_iff {c : Condition} {P : Prop} [Decidable P]
    (hc : holdsCond s.params.loTakenWhenC s.flags c = true ↔ P) : (branchIf s c g).pc = if P then g else s.pc := by
  rw [(branchIf_spec s c g).1]
  exact if_congr hc rfl rfl

/-- Settles O39: each branch reads one flag condition of the subtraction, which is the comparison it names. -/
theorem branchesAfterCompareDecideTheOrder : Obligations.BranchesAfterCompareDecideTheOrder := by
  intro s d b g hb
  refine ⟨_, exec_cp hb, ⟨_, exec_breq g, branchIf_pc_of_iff ?_⟩, ⟨_, exec_brlt g, branchIf_pc_of_iff ?_⟩,
    ⟨_, exec_brlo g, branchIf_pc_of_iff ?_⟩, ⟨_, exec_brov g, branchIf_pc_of_iff ?_⟩⟩
  · exact aluSub_z_iff_eq ..
  · rw [← aluSub_n_xor_v_iff_lt, Bool.xor_comm]
    rfl
  · have hc : (aluSub (readReg s d) (readReg s (b.setWidth 3))).flags.c =
        decide ((readReg s (b.setWidth 3)).toNat ≤ (readReg s d).toNat) := by
      rw [Bool.eq_iff_iff, decide_eq_true_iff, aluSub_c_iff_le]
    rw [← hc]
    exact beq_iff_eq
  · exact aluSub_v_iff_overflow ..

/-- Settles O40, by the end of a jump and the catalog. -/
theorem jumpGoesToItsTarget : Obligations.JumpGoesToItsTarget :=
  ⟨fun s g => ⟨_, exec_jmp g, writePc_scratchDrawn_spec s g⟩, fun _ _ hp hw => decode_of_opc hp hw⟩

/-! ### CALL, RET and STOP -/

/-- Settles O41: the push is a store through the port, and nothing after it writes RAM. -/
theorem callPushesTheReturnAddress : Obligations.CallPushesTheReturnAddress := by
  intro s g handled h e
  have hx := exec_call_of_ask (g := g) e
  refine ⟨_, hx, rfl, rfl, stored_of_ram (by simp), ?_, ?_, ?_, ?_, exec_keepsRunning (i := .call g) nofun hx,
    exec_keepsFixed hx⟩ <;> simp

/-- Settles O42, by the pop through the port. -/
theorem returnPopsTheAddress : Obligations.ReturnPopsTheAddress := by
  intro s r h e
  have hx := exec_ret_of_ask e
  exact ⟨_, hx, rfl, rfl, rfl, rfl, rfl, rfl, rfl, exec_keepsRunning (i := .ret) nofun hx, exec_keepsFixed hx⟩

/-- Settles O43: the cell CALL pushed to is the one RET pops from, and the fetch between them writes neither. -/
theorem callThenReturnRestoresPcAndSp : Obligations.CallThenReturnRestoresPcAndSp := by
  intro s g hhooks hwf
  obtain ⟨t, ht, -, htsp, hstored, hthooks, -, htregs, htflags, -⟩ :=
    callPushesTheReturnAddress s g false .stubs (by rw [hhooks]; exact askWrite_stubs)
  obtain ⟨u, hu, husp, hupc, -, -, huram, huregs, huflags, -⟩ :=
    returnPopsTheAddress (fetch t) .notControlled .stubs (by rw [fetch_hooks, hthooks]; exact askRead_stubs)
  have hsp : (fetch t).sp + 1#8 = s.sp := by rw [fetch_sp, htsp, BitVec.sub_add_cancel]
  refine ⟨t, u, ht, hu, ?_, husp.trans hsp, ?_, huflags.trans htflags, fun a ha => ?_⟩
  · rw [hupc, hsp, readValue_notControlled, ramRead_congr (fetch_ram t), hstored.byEngine rfl hwf]
  · exact readReg_congr (huregs.trans htregs)
  · rw [ramRead_congr huram, ramRead_congr (fetch_ram t), hstored.others a ha]

/-- Settles O44: what STOP leaves, and the step of a ready engine, which ends there. -/
theorem stopHaltsWithoutFetch : Obligations.StopHaltsWithoutFetch := by
  refine fun s => ⟨⟨_, exec_stop s, rfl, rfl, rfl, rfl, rfl, rfl, ⟨rfl, rfl, rfl⟩, exec_keepsFixed (exec_stop s)⟩,
    fun hs hd => ?_⟩
  have hstep : step s = .next { scratchDrawn s with halted := true, upc := 0 } := by
    rw [step_of_ready hs, runCurrent_of_decode hd, runToBoundary_of_next (exec_stop s), closingFetch_stop]
  exact ⟨_, hstep, rfl, rfl, rfl, rfl⟩

end Sys2Proof.Proofs


/-! ## Reset, load and reading the state (70_reset_and_hazards.md)

What the two resets leave, what `load` answers and places, the launch of a program, and what the host reads. -/

namespace Sys2Proof.Proofs

open Sys2Proof.Machine Sys2Proof.Safety

variable {s : State} {ws : List Word}

/-! ### Resets -/

theorem readReg_hardReset (keep : Bool) (q : RegIdx) : readReg (hardReset keep s) q = 0#8 := by
  simp [readReg]

theorem ramRead_hardReset (keep : Bool) (a : Addr) : ramRead (hardReset keep s) a = 0#8 := by
  simp [ramRead]

theorem romRead_hardReset (keep : Bool) (a : Addr) :
    romRead (hardReset keep s) a = if keep then romRead s a else 0#16 := by
  cases keep <;> rfl

/-- Settles O57: the fields each reset writes; ROM and the fetched word by whether ROM is preserved. -/
theorem resetsLeaveTheStatedValues : Obligations.ResetsLeaveTheStatedValues :=
  ⟨fun _ => ⟨rfl, fun keep => ⟨readReg_hardReset keep, ramRead_hardReset keep, rfl, rfl, rfl, rfl, rfl, rfl, rfl, rfl,
    romRead_hardReset keep, romRead_hardReset keep 0#8, rfl, rfl, rfl⟩⟩, rfl⟩

/-! ### Load -/

/-- Word `k` of a program is in cell `k` (R210). -/
theorem romRead_writeAll_inside (hwf : Memory.wf s.rom = true) (hl : ws.length ≤ 256) (k : Nat) (hk : k < ws.length) :
    romRead { s with rom := Memory.writeAll s.rom 0 ws } (BitVec.ofNat 8 k) = ws[k] := by
  have hmod : k % 2 ^ 8 = 0 + k := by omega
  rw [romRead, BitVec.toNat_ofNat, hmod]
  exact Memory.read_writeAll_inside ws hwf (by omega) k hk

/-- The cells after a program are as before (R210). -/
theorem romRead_writeAll_outside (a : Addr) (ha : ws.length ≤ a.toNat) :
    romRead { s with rom := Memory.writeAll s.rom 0 ws } a = romRead s a :=
  Memory.read_writeAll_outside ws s.rom 0 a.toNat (.inr (by omega))

/-- Settles O58, by the three answers of `load`. -/
theorem loadValidatesAndPlaces : Obligations.LoadValidatesAndPlaces := by
  refine fun ws s hwf => ⟨fun hl => ?_, fun hl hc => ?_, fun hl hc => ?_, fun hne => ?_⟩
  · rw [load_of_oversize hl]
  · rw [load_of_unassigned hl hc]
  · rw [load_of_assigned hl hc]
    exact ⟨rfl, romRead_writeAll_inside hwf hl, romRead_writeAll_outside, rfl⟩
  · obtain ⟨-, h⟩ | ⟨_, -, h⟩ := load_cases ws s
    · rw [h] at hne
      exact absurd rfl hne
    · rw [h]
      rfl

/-- Settles O59: the load of a program into a created engine after a hard reset, whose ROM is empty. -/
theorem launchStateOfAProgram : Obligations.LaunchStateOfAProgram := by
  intro p h w ws hlen hc
  have hl : (w :: ws).length ≤ 256 := by rw [List.length_cons]; omega
  have hinside := romRead_writeAll_inside (s := hardReset false (installHooks h (create p))) Memory.wf_nil hl
  refine ⟨_, load_of_assigned hl hc, ⟨rfl, rfl, rfl⟩, rfl,
    readReg_hardReset (s := installHooks h (create p)) false, rfl, rfl, rfl, rfl,
    ramRead_hardReset (s := installHooks h (create p)) false, hinside, fun a ha => ?_, rfl, rfl,
    hinside 0 (by simp), rfl, rfl⟩
  exact romRead_writeAll_outside (s := hardReset false (installHooks h (create p))) a ha

/-! ### Reading the state -/

/-- Settles O60: the fields the host reads anywhere, and at a boundary the state itself. -/
theorem hostReadsTheState : Obligations.HostReadsTheState := by
  refine fun s => ⟨shownState_ir, shownState_upc, shownState_halted, shownState_fault, shownState_refused, rfl,
    fun hu => ?_⟩
  simp [readState, Readout.ofState, shownState_of_upc hu]

end Sys2Proof.Proofs
